-- ==== Sys2Proof/Word.lean ====
section
/-! DEFINITION. The word types of the frame codec: bytes, 16-bit ids, 32-bit command and result words, byte strings. -/

namespace Sys2Proof

/-- A byte is 8 bits, bit 0 least significant (R9). -/
abbrev Byte := BitVec 8

/-- A bus/device/function id or a vendor id: 16 bits (R26). -/
abbrev Id16 := BitVec 16

/-- The 32-bit command word `CMD` presented on the command port (R74). -/
abbrev CmdWord := BitVec 32

/-- The 32-bit result word `RES` (R78). -/
abbrev ResWord := BitVec 32

/-- A finite byte string; byte 0 is the first byte on the wire (R10). -/
abbrev Bytes := List Byte

end Sys2Proof
end

