-- ==== Sys2Proof/Config.lean ====
section
/-! DEFINITION. The configuration record `CFG` of 00_scope.md R6 and 10_state.md R21. The model needs no free value: the
spec leaves no result of a command open. -/

namespace Sys2Proof

/-- The configuration record `CFG` (R6, R21): the only state of the block that lasts between commands (R20).
Every field is written by the host and by reset, and read by commands. Any value of these types is legal (R8). -/
structure Cfg where
  /-- Register 0, `CFG.MAX_FRAME`: the largest total frame, header included, that ASSEMBLE may emit. Any natural. -/
  maxFrame : Nat
  /-- Register 1, `CFG.ROUTING`: header byte 0 bits [2:0]. -/
  routing : BitVec 3
  /-- Register 2, `CFG.ATTR`: header byte 2 bits [5:4]. -/
  attr : BitVec 2
  /-- Register 3, `CFG.SUBCODE`: header byte 6 bits [3:0]. -/
  subcode : BitVec 4
  deriving DecidableEq, Repr

end Sys2Proof
end

