-- ==== Sys2Proof/Syntax.lean ====
section
/-! DEFINITION. The commands of the block (30_encoding.md R75) and the abstract form of the command lines of R90 and R91.
A command word has no operand bits (R90), so a command has no arguments: its operands arrive on the operand ports (R77). -/

namespace Sys2Proof

/-- The five operations, one constructor per row of the opcode table (R75). -/
inductive Instr where
  /-- ENCODE_HDR (R100): pack a Frame Descriptor into the 12-byte header. -/
  | encodeHdr
  /-- DECODE_HDR (R103): unpack and validate a 12-byte header. -/
  | decodeHdr
  /-- PAD_CALC (R140): padding and DWORD length of a combined length. -/
  | padCalc
  /-- ASSEMBLE (R144): build a complete frame. -/
  | assemble
  /-- DISASSEMBLE (R170): validate a received frame and slice it. -/
  | disassemble
  deriving DecidableEq, Repr

/-- A byte-string literal of R91: `[b0 b1 ...]`, `zeros(n)` or `s ++ t`. -/
inductive ByteExpr where
  | lit (bytes : Bytes)
  | zeros (n : Nat)
  | append (s t : ByteExpr)
  deriving DecidableEq, Repr

/-- A descriptor literal of R91. A field left out of the braces is `none`. -/
structure DescExpr where
  fmtType : Option Nat := none
  routing : Option Nat := none
  tc : Option Nat := none
  td : Option Nat := none
  ep : Option Nat := none
  attr : Option Nat := none
  lengthDwords : Option Nat := none
  requesterId : Option Nat := none
  padLen : Option Nat := none
  subcode : Option Nat := none
  messageCode : Option Nat := none
  targetId : Option Nat := none
  vendorId : Option Nat := none
  deriving DecidableEq, Repr

/-- One operand of a command line (R90, R91). -/
inductive OperandExpr where
  | bytes (e : ByteExpr)
  | num (n : Nat)
  | desc (d : DescExpr)
  deriving DecidableEq, Repr

/-- One command line of R90: a mnemonic and its operands in the port order of R77, perhaps with a label and a comment,
which have no meaning for the block. -/
structure Line where
  label : Option (List Char) := none
  op : Instr
  operands : List OperandExpr
  comment : Option (List Char) := none
  deriving DecidableEq, Repr

end Sys2Proof
end

