-- ==== Sys2Proof/WellFormed.lean ====
section
/-! DEFINITION. The checks a command, a command line and a configuration write must pass. -/

namespace Sys2Proof

/-- A command has no operand bits (R90), so each of the five is well formed as it stands. -/
def Instr.wf : Instr → Bool
  | .encodeHdr => true
  | .decodeHdr => true
  | .padCalc => true
  | .assemble => true
  | .disassemble => true

/-- The number of bytes a byte-string literal denotes (R91). -/
def ByteExpr.size : ByteExpr → Nat
  | .lit bytes => bytes.length
  | .zeros n => n
  | .append s t => s.size + t.size

/-- A field that is left out, or written with a value of its width. -/
def fieldFits (width : Nat) : Option Nat → Bool
  | none => true
  | some v => decide (v < 2 ^ width)

/-- A descriptor literal writes the four fields that have no default, and every fixed-width field it writes fits its
width of R26; `length_dwords` and `pad_len` are naturals. -/
def DescExpr.wf (d : DescExpr) : Bool :=
  d.lengthDwords.isSome && d.padLen.isSome && d.requesterId.isSome && d.targetId.isSome
    && fieldFits 5 d.fmtType && fieldFits 3 d.routing && fieldFits 3 d.tc && fieldFits 1 d.td && fieldFits 1 d.ep
    && fieldFits 2 d.attr && fieldFits 16 d.requesterId && fieldFits 4 d.subcode && fieldFits 8 d.messageCode
    && fieldFits 16 d.targetId && fieldFits 16 d.vendorId

/-- A command line has exactly the operands of its operation, in port order, each of its port's type (R77, R90). -/
def Line.wf (l : Line) : Bool :=
  match l.op, l.operands with
  | .encodeHdr, [.desc d] => d.wf
  | .decodeHdr, [.bytes e] => decide (e.size = 12)
  | .padCalc, [.num _] => true
  | .assemble, [.bytes _, .bytes _, .num rid, .num tid, .num tag] =>
      decide (rid < 2 ^ 16) && decide (tid < 2 ^ 16) && decide (tag < 2 ^ 8)
  | .disassemble, [.bytes _, .num _] => true
  | _, _ => false

/-- The numbered configuration register map of R21: registers 0 to 3 and the legal values of each. -/
def cfgWriteLegal (number value : Nat) : Bool :=
  match number with
  | 0 => true
  | 1 => decide (value < 2 ^ 3)
  | 2 => decide (value < 2 ^ 2)
  | 3 => decide (value < 2 ^ 4)
  | _ => false

end Sys2Proof
end

