-- ==== Sys2Proof/Decode.lean ====
section
/-! DEFINITION. The command word: its decoder, total on all 32-bit words and rejecting by name, and its encoder
(30_encoding.md R74, R75, R76). -/

namespace Sys2Proof

/-- Why a command word is illegal (R76); the reason is reported in INFO (R206). -/
inductive IllegalReason where
  /-- OP is 0b101, 0b110 or 0b111. -/
  | reservedOp
  /-- OP is defined and some bit of [31:3] is set. -/
  | reservedBits
  deriving DecidableEq, Repr

/-- The operation named by the OP field, bits [2:0] (R75); the other three values are reserved. -/
def opOf (op : BitVec 3) : Option Instr :=
  match op.toNat with
  | 0 => some .encodeHdr
  | 1 => some .decodeHdr
  | 2 => some .padCalc
  | 3 => some .assemble
  | 4 => some .disassemble
  | _ => none

/-- The decoder. OP is checked first, then the reserved bits [31:3] (R76). -/
def decode (cmd : CmdWord) : Except IllegalReason Instr :=
  match opOf (cmd.extractLsb 2 0) with
  | none => .error .reservedOp
  | some i => if cmd.extractLsb 31 3 = 0 then .ok i else .error .reservedBits

/-- The OP number of an operation (R75). -/
def opNumber : Instr → BitVec 3
  | .encodeHdr => 0b000
  | .decodeHdr => 0b001
  | .padCalc => 0b010
  | .assemble => 0b011
  | .disassemble => 0b100

/-- The encoder: the one CMD word of an operation, OP in bits [2:0] below 29 zero bits (R74, R90). -/
def encode (i : Instr) : CmdWord := 0#29 ++ opNumber i

/-- The command word presented by an instruction of `nbits` bits `w`, the bits above `nbits` being 0. -/
def tableWord (nbits w : Nat) : CmdWord := BitVec.ofNat 32 (w % 2 ^ nbits)

/-- What the decoder reads from an instruction of the opcode table. The block has one 32-bit format (R74), so an
instruction longer than 32 bits is none of its commands. -/
def decodeTableWord (nbits w : Nat) : Option Instr :=
  if nbits ≤ 32 then (decode (tableWord nbits w)).toOption else none

end Sys2Proof
end

