-- ==== Sys2Proof/Machine/Constants.lean ====
section
/-! DEFINITION. The fixed constants of the block (00_scope.md R7, 10_state.md R22) and the reset values of CFG (R32).
No command and no host action changes a fixed constant. -/

namespace Sys2Proof.Machine

/-- `MEDIUM_HDR_LEN`: offsets 0 to 7. -/
def mediumHdrLen : Nat := 8

/-- `VDM_HDR_LEN`: offsets 8 to 11. -/
def vdmHdrLen : Nat := 4

/-- `HDR_LEN`: medium header and VDM header together, 12 bytes (R60, C1). -/
def hdrLen : Nat := mediumHdrLen + vdmHdrLen

/-- `FMT_TYPE`: header byte 0 bits [7:3] (R61, the spec's own D5). -/
def fmtTypeValue : BitVec 5 := 0b01110

/-- `TC_VALUE`: always zero for MCTP traffic (R62). -/
def tcValue : BitVec 3 := 0

/-- `TD_VALUE` (R63). -/
def tdValue : BitVec 1 := 0

/-- `EP_VALUE` (R63). -/
def epValue : BitVec 1 := 0

/-- `MSG_CODE`: Type-1 VDM (R67). -/
def msgCode : BitVec 8 := 0x7F

/-- `VENDOR_ID`: sent as bytes 0x1A then 0xB4 (R69). -/
def vendorIdValue : Id16 := 0xB41A

/-- `LEN_BITS`: the width of the length field (R71). -/
def lenBits : Nat := 10

/-- `LEN_MAX`: 2^10 - 1 = 1023. -/
def lenMax : Nat := 2 ^ lenBits - 1

/-- `PAD_MAX`: at most three bytes of padding. -/
def padMax : Nat := 3

/-- `COMBINED_MAX`: 4 * LEN_MAX = 4092 bytes (C10). -/
def combinedMax : Nat := 4 * lenMax

/-- The reset values of CFG (R32, R230); all but MAX_FRAME are the spec's own decisions (D6, D9, D11, D32). -/
def cfgReset : Cfg := { maxFrame := 1024, routing := 0b000, attr := 0b01, subcode := 0x0 }

end Sys2Proof.Machine
end

