-- ==== Sys2Proof/Machine/Ports.lean ====
section
/-! DEFINITION. What travels on the operand and result ports (30_encoding.md R77): the 12-byte header, the Frame
Descriptor (10_state.md R26), the operand ports and the result ports. -/

namespace Sys2Proof.Machine

/-- A header: exactly 12 bytes, `b0` first on the wire (R60, R77, D24). -/
structure Header where
  b0 : Byte
  b1 : Byte
  b2 : Byte
  b3 : Byte
  b4 : Byte
  b5 : Byte
  b6 : Byte
  b7 : Byte
  b8 : Byte
  b9 : Byte
  b10 : Byte
  b11 : Byte
  deriving DecidableEq, Repr

/-- The Frame Descriptor, field for field as R26 has it. `lengthDwords` and `padLen` are naturals, so that ENCODE_HDR
has a value to reject (D27). There is no tag field (C5). -/
structure FrameDescriptor where
  fmtType : BitVec 5
  routing : BitVec 3
  tc : BitVec 3
  td : BitVec 1
  ep : BitVec 1
  attr : BitVec 2
  lengthDwords : Nat
  requesterId : Id16
  padLen : Nat
  subcode : BitVec 4
  messageCode : BitVec 8
  targetId : Id16
  vendorId : Id16
  deriving DecidableEq, Repr

/-- The operand ports of all five operations (R77). A command reads only the ports of its own operation. -/
structure OperandPorts where
  /-- `DESC` of ENCODE_HDR. -/
  desc : FrameDescriptor
  /-- `HDR` of DECODE_HDR: exactly 12 bytes. -/
  hdr : Header
  /-- `COMBINED` of PAD_CALC. -/
  combined : Nat
  /-- `MH` of ASSEMBLE. -/
  mh : Bytes
  /-- `PL` of ASSEMBLE. -/
  pl : Bytes
  /-- `RID` of ASSEMBLE. -/
  rid : Id16
  /-- `TID` of ASSEMBLE. -/
  tid : Id16
  /-- `TAG` of ASSEMBLE, which has no effect (R149). -/
  tag : BitVec 8
  /-- `BUF` of DISASSEMBLE. -/
  buf : Bytes
  /-- `HLEN` of DISASSEMBLE. -/
  hlen : Nat
  deriving DecidableEq, Repr

/-- The result ports of all five operations (R77), other than `RES`. `none` is the spec's own state: the port holds no
value, because no command wrote it (R205, 93 Part 1 rows 9 and 14). -/
structure ResultPorts where
  /-- `HDR` of ENCODE_HDR. -/
  hdr : Option Header
  /-- `DESC` of DECODE_HDR and DISASSEMBLE. -/
  desc : Option FrameDescriptor
  /-- `PAD` of PAD_CALC. -/
  pad : Option Nat
  /-- `NDW` of PAD_CALC. -/
  ndw : Option Nat
  /-- `FRAME` of ASSEMBLE. -/
  frame : Option Bytes
  /-- `MH` of DISASSEMBLE. -/
  mh : Option Bytes
  /-- `PL` of DISASSEMBLE. -/
  pl : Option Bytes
  deriving DecidableEq, Repr

/-- The names of the result ports (R77, R78). -/
inductive ResultPort where
  | res | hdr | desc | pad | ndw | frame | mh | pl
  deriving DecidableEq, Repr

/-- A value taken off a result port. -/
inductive PortValue where
  | word (w : ResWord)
  | header (h : Header)
  | descriptor (d : FrameDescriptor)
  | natural (n : Nat)
  | bytes (s : Bytes)
  deriving DecidableEq, Repr

/-- A descriptor with every field 0. -/
def zeroDescriptor : FrameDescriptor :=
  { fmtType := 0, routing := 0, tc := 0, td := 0, ep := 0, attr := 0, lengthDwords := 0, requesterId := 0, padLen := 0,
    subcode := 0, messageCode := 0, targetId := 0, vendorId := 0 }

/-- A header of twelve zero bytes. -/
def zeroHeader : Header := ⟨0, 0, 0, 0, 0, 0, 0, 0, 0, 0, 0, 0⟩

/-- What the operand ports carry while no command is presented. R32 says that no operand exists then; the values are the
model's. DESIGN CHOICE, unsafe (log 2). -/
def operandsAtRest : OperandPorts :=
  { desc := zeroDescriptor, hdr := zeroHeader, combined := 0, mh := [], pl := [], rid := 0, tid := 0, tag := 0,
    buf := [], hlen := 0 }

/-- No result port holds a value (R32, R205). -/
def noResults : ResultPorts :=
  { hdr := none, desc := none, pad := none, ndw := none, frame := none, mh := none, pl := none }

end Sys2Proof.Machine
end

