-- ==== Sys2Proof/Machine/Flags.lean ====
section
/-! DEFINITION. The block has no flags or condition codes (10_state.md R29). What a command reports is its result word:
the errors of 60_exceptions.md R200, the STATUS, field and reason codes of 30_encoding.md R73, R76, R79, R80, and the
layout of RES (R78). The numbers are the spec's own (D3). -/

namespace Sys2Proof.Machine

/-- The header fields an EncodingError or a MalformedFrame names (R73). -/
inductive FieldId where
  | noField | fmtType | routing | trafficClass | rsvdB1 | td | ep | attr | rsvdB2 | length | rsvdB6 | padLen | subcode
  | msgCode | vendorId
  deriving DecidableEq, Repr

/-- The 8-bit field codes of R73. -/
def fieldCode : FieldId → BitVec 8
  | .noField => 0
  | .fmtType => 1
  | .routing => 2
  | .trafficClass => 3
  | .rsvdB1 => 4
  | .td => 5
  | .ep => 6
  | .attr => 7
  | .rsvdB2 => 8
  | .length => 9
  | .rsvdB6 => 10
  | .padLen => 11
  | .subcode => 12
  | .msgCode => 13
  | .vendorId => 14

/-- The truncation reasons of R80. -/
inductive TruncReason where
  /-- Fewer than 12 bytes (R171). -/
  | shortHeader
  /-- Fewer than `12 + 4 * length_dwords` bytes (R173). -/
  | shortRegion
  /-- The span is shorter than `HLEN` (R175). -/
  | shortSpan
  deriving DecidableEq, Repr

/-- The reason codes of TRUNCATED_FRAME (R80). -/
def truncCode : TruncReason → BitVec 8
  | .shortHeader => 1
  | .shortRegion => 2
  | .shortSpan => 3

/-- The reason codes of ILLEGAL_COMMAND (R76, R206). -/
def illegalCode : IllegalReason → BitVec 8
  | .reservedOp => 1
  | .reservedBits => 2

/-- Every outcome other than OK (R200). -/
inductive CmdError where
  /-- A descriptor field is out of range or differs from its fixed value; ENCODE_HDR (R201). -/
  | encodingError (f : FieldId)
  /-- `len(mh) + len(pl) > 4092`; ASSEMBLE (R202). -/
  | payloadTooLarge
  /-- The frame would exceed `CFG.MAX_FRAME`; ASSEMBLE (R203). -/
  | frameTooLarge
  /-- A received header violates a fixed value, a reserved bit or the padding bound; DECODE_HDR, DISASSEMBLE (R204). -/
  | malformedFrame (f : FieldId)
  /-- The buffer is too short; DISASSEMBLE (R207). -/
  | truncatedFrame (r : TruncReason)
  /-- The command word is illegal (R206). -/
  | illegalCommand (r : IllegalReason)
  deriving DecidableEq, Repr

/-- STATUS of OK (R79). -/
def statusOk : BitVec 4 := 0

/-- STATUS of an error (R79). -/
def errorStatus : CmdError → BitVec 4
  | .encodingError _ => 1
  | .payloadTooLarge => 2
  | .frameTooLarge => 3
  | .malformedFrame _ => 4
  | .truncatedFrame _ => 5
  | .illegalCommand _ => 6

/-- INFO of an error: its field code or reason code, 0 when the status has no information (R78, R79). -/
def errorInfo : CmdError → BitVec 8
  | .encodingError f => fieldCode f
  | .payloadTooLarge => 0
  | .frameTooLarge => 0
  | .malformedFrame f => fieldCode f
  | .truncatedFrame r => truncCode r
  | .illegalCommand r => illegalCode r

/-- RES: STATUS in bits [3:0], INFO in bits [15:8], bits [7:4] and [31:16] always 0 (R78). -/
def resultWord (status : BitVec 4) (info : BitVec 8) : ResWord := 0#16 ++ info ++ 0#4 ++ status

/-- RES of a command that ends OK: INFO is 0 (R79). -/
def resOk : ResWord := resultWord statusOk 0

/-- RES of a command that ends in an error. -/
def resError (e : CmdError) : ResWord := resultWord (errorStatus e) (errorInfo e)

/-- `RES.STATUS` (R78), which the host's pseudo-operations test (R92). -/
def resStatus (w : ResWord) : BitVec 4 := w.extractLsb 3 0

/-- `RES.INFO` (R78). -/
def resInfo (w : ResWord) : BitVec 8 := w.extractLsb 15 8

end Sys2Proof.Machine
end

