-- ==== Sys2Proof/Machine/State.lean ====
section
/-! DEFINITION. The state of the machine: the configuration record, the operand and result ports, and the host's pending
interactions; how a step can stop; the state after reset. -/

namespace Sys2Proof.Machine

/-- What a host can do to a command while it runs. -/
inductive Disturbance where
  /-- The host writes CFG during the command: refused (70_reset_and_hazards.md R235). -/
  | cfgWrite
  /-- The host changes an operand of the command during it: refused (R236). -/
  | operandChange
  /-- A reset arrives during the command, which then has no outcome (R230). -/
  | reset
  deriving DecidableEq, Repr

/-- One interaction of the host with the block (60_exceptions.md R220). -/
inductive HostAction where
  /-- Reset the block (R230). -/
  | reset
  /-- Write a configuration register by its number between commands (R21, R232). -/
  | writeCfg (number value : Nat)
  /-- Present a command word together with its operands (R74). -/
  | command (cmd : CmdWord) (ops : OperandPorts)
  /-- Present a command and disturb it while it runs (R230, R235, R236). -/
  | disturbed (cmd : CmdWord) (ops : OperandPorts) (d : Disturbance)
  /-- Take the value on a result port (93_implementation_defined.md Part 1 rows 9 and 14). -/
  | readPort (p : ResultPort)
  deriving DecidableEq, Repr

/-- The whole state of the machine. -/
structure State where
  /-- CFG, the block's only state that lasts between commands (R20). -/
  cfg : Cfg
  /-- What the operand ports carry (R77). -/
  ops : OperandPorts
  /-- The result word on the result port, if a command has returned one (R78). -/
  res : Option ResWord
  /-- The other result ports (R77). -/
  results : ResultPorts
  /-- The host's interactions still to come, in its order (R25, R216): the model's own field (log 1). -/
  host : List HostAction
  deriving DecidableEq, Repr

/-- Why the machine stops with a fault. No command raises one (R241). -/
inductive Fault where
  /-- The host reads a result port that holds no value: `readPort` raises it, and the spec asks for it ("must fault, not
  return a stale or zero value", 93 Part 1 rows 9 and 14). Safe: the machine stops. -/
  | noResult (p : ResultPort)
  deriving DecidableEq, Repr

/-- Why the machine gives no meaning to what it is asked. No command raises one (R241). -/
inductive Refusal where
  /-- `exec` raises it for an instruction that has no meaning in the model; there is none. Safe: the machine stops. -/
  | notModelled (mnemonic : String)
  /-- The host writes CFG during a command (R235: "A model must treat it as refused"). Raised by `act`. Safe: the machine
  stops. -/
  | cfgWriteDuringCommand
  /-- The host changes an operand during a command (R236: "a model must treat it as refused"). Raised by `act`. Safe: the
  machine stops. -/
  | operandChangeDuringCommand
  /-- The host writes a configuration register that the map of R21 does not have. Raised by `act` (log 7). Safe: the
  machine stops. -/
  | noSuchCfgRegister (number : Nat)
  /-- The host writes a value that R21 does not list as legal for the register. Raised by `act` (log 7). Safe: the machine
  stops. -/
  | illegalCfgValue (number value : Nat)
  deriving DecidableEq, Repr

/-- The machine right after reset (R32, R230, R231): CFG at its reset values, no result, nothing pending. The block then
waits for a command. -/
def State.reset : State :=
  { cfg := cfgReset, ops := operandsAtRest, res := none, results := noResults, host := [] }

end Sys2Proof.Machine
end

