-- ==== Sys2Proof/Machine/Operands.lean ====
section
/-! DEFINITION. The pseudocode primitives of 00_scope.md R12 over byte strings and header bytes. -/

namespace Sys2Proof.Machine

/-- `MemRead(s, off, n)`: the byte string `s[off .. off+n)` (R12, R40). A rule calls it only after checking its lengths. -/
def memRead (s : Bytes) (off n : Nat) : Bytes := (s.drop off).take n

/-- `zeros(n)`: `n` bytes of value 0x00 (R10). -/
def zeros (n : Nat) : Bytes := List.replicate n 0x00

/-- `u16le`: the 16-bit value of two bytes in wire order (R12, R43). -/
def u16le (lo hi : Byte) : Id16 := lo.setWidth 16 ||| (hi.setWidth 16 <<< 8)

/-- The first byte of `put16le(v)`, `v[7:0]` (R12, R43). -/
def lowByte (v : Id16) : Byte := v.extractLsb 7 0

/-- The second byte of `put16le(v)`, `v[15:8]` (R12, R43). -/
def highByte (v : Id16) : Byte := v.extractLsb 15 8

/-- The bytes of a header in wire order (R42). -/
def headerBytes (h : Header) : Bytes :=
  [h.b0, h.b1, h.b2, h.b3, h.b4, h.b5, h.b6, h.b7, h.b8, h.b9, h.b10, h.b11]

/-- The header that the first 12 bytes of a byte string are. A rule calls it only on strings of at least 12 bytes (R10). -/
def headerOf (s : Bytes) : Header :=
  { b0 := s.getD 0 0, b1 := s.getD 1 0, b2 := s.getD 2 0, b3 := s.getD 3 0, b4 := s.getD 4 0, b5 := s.getD 5 0,
    b6 := s.getD 6 0, b7 := s.getD 7 0, b8 := s.getD 8 0, b9 := s.getD 9 0, b10 := s.getD 10 0, b11 := s.getD 11 0 }

/-- The field of the first check that fails, in the order listed; each entry says whether its check fails (R101, R105). -/
def firstFailure : List (Bool × FieldId) → Option FieldId
  | [] => none
  | (failed, f) :: rest => if failed then some f else firstFailure rest

end Sys2Proof.Machine
end

