-- ==== Sys2Proof/Machine/Ops.lean ====
section
/-! DEFINITION. The operations that change the state: presenting a command, ending it with OK or with an error, writing
result ports, writing CFG, resetting, and reading a result port.
An error is the block's only kind of exception (60_exceptions.md R205): it saves nothing, vectors nowhere and changes no
mode, so nothing returns from it (R211). -/

namespace Sys2Proof.Machine

/-- The host presents operands (R74, R77). What the result ports held is gone: a command returns its own outcome only
(R23, R28; log 3). -/
def State.present (s : State) (ops : OperandPorts) : State :=
  { s with ops := ops, res := none, results := noResults }

/-- `return ok`: the command ends with OK, the result ports hold exactly what it wrote, and its operands are gone (R12,
R13, R28). CFG is not written (R21). -/
def State.ok (s : State) (r : ResultPorts) : State :=
  { s with ops := operandsAtRest, res := some resOk, results := r }

/-- `raise E(info)`, the ONE way an error is taken: only the result word is written, no result port, and its operands are
gone (R12, R205). CFG is not written. -/
def State.raise (s : State) (e : CmdError) : State :=
  { s with ops := operandsAtRest, res := some (resError e), results := noResults }

/-- End a command with its outcome: on OK write the result ports, otherwise raise the error (R13, R41). -/
def State.conclude {α : Type} (s : State) (outcome : Except CmdError α) (write : α → ResultPorts) : State :=
  match outcome with
  | .ok a => s.ok (write a)
  | .error e => s.raise e

/-- `MemWrite(HDR, h)`. -/
def writeHdr (h : Header) : ResultPorts := { noResults with hdr := some h }

/-- `MemWrite(DESC, d)`. -/
def writeDesc (d : FrameDescriptor) : ResultPorts := { noResults with desc := some d }

/-- `MemWrite(PAD, pad)` and `MemWrite(NDW, ndw)`. -/
def writePadNdw (r : Nat × Nat) : ResultPorts := { noResults with pad := some r.1, ndw := some r.2 }

/-- `MemWrite(FRAME, f)`. -/
def writeFrame (f : Bytes) : ResultPorts := { noResults with frame := some f }

/-- `MemWrite(MH, mh)`, `MemWrite(PL, pl)` and `MemWrite(DESC, d)`. -/
def writeSlices (r : Bytes × Bytes × FrameDescriptor) : ResultPorts :=
  { noResults with mh := some r.1, pl := some r.2.1, desc := some r.2.2 }

/-- A host write of a configuration register by its number (R21). A number or a value outside the map is refused (log 7). -/
def cfgWrite (c : Cfg) (number value : Nat) : Except Refusal Cfg :=
  match number with
  | 0 => .ok { c with maxFrame := value }
  | 1 => if value < 8 then .ok { c with routing := BitVec.ofNat 3 value } else .error (.illegalCfgValue 1 value)
  | 2 => if value < 4 then .ok { c with attr := BitVec.ofNat 2 value } else .error (.illegalCfgValue 2 value)
  | 3 => if value < 16 then .ok { c with subcode := BitVec.ofNat 4 value } else .error (.illegalCfgValue 3 value)
  | n => .error (.noSuchCfgRegister n)

/-- A reset of the block (R230): CFG at its reset values, a command in progress ended without an outcome, no result held.
The host's later interactions are the host's own and stay (log 8). -/
def State.resetBlock (s : State) : State :=
  { s with cfg := cfgReset, ops := operandsAtRest, res := none, results := noResults }

/-- The value on a result port, or the fault of a port that holds none (93 Part 1 rows 9 and 14). -/
def State.readPort (s : State) (p : ResultPort) : Except Fault PortValue :=
  let got : Option PortValue :=
    match p with
    | .res => s.res.map .word
    | .hdr => s.results.hdr.map .header
    | .desc => s.results.desc.map .descriptor
    | .pad => s.results.pad.map .natural
    | .ndw => s.results.ndw.map .natural
    | .frame => s.results.frame.map .bytes
    | .mh => s.results.mh.map .bytes
    | .pl => s.results.pl.map .bytes
  match got with
  | some v => .ok v
  | none => .error (.noResult p)

end Sys2Proof.Machine
end

