-- ==== Sys2Proof/Machine/HeaderCodec.lean ====
section
/-! DEFINITION. The header codec: ENCODE_HDR and DECODE_HDR (40_header_codec.md). Both read only their operand and CFG and
write only their result port (R109). -/

namespace Sys2Proof.Machine

/-- The checks of ENCODE_HDR in their order (R100, R101, R209). -/
def encodeChecks (cfg : Cfg) (d : FrameDescriptor) : List (Bool × FieldId) :=
  [ (d.fmtType != fmtTypeValue, .fmtType),
    (d.routing != cfg.routing, .routing),
    (d.tc != tcValue, .trafficClass),
    (d.td != tdValue, .td),
    (d.ep != epValue, .ep),
    (d.attr != cfg.attr, .attr),
    (decide (d.lengthDwords > lenMax), .length),
    (decide (d.padLen > padMax), .padLen),
    (decide (d.padLen > 4 * d.lengthDwords), .padLen),
    (d.subcode != cfg.subcode, .subcode),
    (d.messageCode != msgCode, .msgCode),
    (d.vendorId != vendorIdValue, .vendorId) ]

/-- The 12 bytes of a descriptor that has passed the checks (R60 to R69, R71, R100). -/
def packHeader (d : FrameDescriptor) : Header :=
  let len : BitVec 10 := BitVec.ofNat 10 d.lengthDwords
  let pad : BitVec 8 := BitVec.ofNat 8 d.padLen
  { b0 := (d.fmtType.setWidth 8 <<< 3) ||| d.routing.setWidth 8,
    b1 := d.tc.setWidth 8 <<< 4,
    b2 := (d.td.setWidth 8 <<< 7) ||| (d.ep.setWidth 8 <<< 6) ||| (d.attr.setWidth 8 <<< 4)
            ||| (len.extractLsb 9 8).setWidth 8,
    b3 := len.extractLsb 7 0,
    b4 := lowByte d.requesterId,
    b5 := highByte d.requesterId,
    b6 := (pad <<< 4) ||| d.subcode.setWidth 8,
    b7 := d.messageCode,
    b8 := lowByte d.targetId,
    b9 := highByte d.targetId,
    b10 := lowByte d.vendorId,
    b11 := highByte d.vendorId }

/-- ENCODE_HDR as a function of its operand and CFG (R100). -/
def encodeHeader (cfg : Cfg) (d : FrameDescriptor) : Except CmdError Header :=
  match firstFailure (encodeChecks cfg d) with
  | some f => .error (.encodingError f)
  | none => .ok (packHeader d)

/-- `length_dwords` of a header: the two bits of byte 2, shifted left by 8, with byte 3 (R71). -/
def headerLength (h : Header) : Nat :=
  (((h.b2.extractLsb 1 0).setWidth 10 <<< 8) ||| h.b3.setWidth 10 : BitVec 10).toNat

/-- `pad_len` of a header: byte 6 bits [5:4] (R66). -/
def headerPad (h : Header) : Nat := (h.b6.extractLsb 5 4).toNat

/-- The checks of DECODE_HDR in their order, the cross-field PAD_LEN check last (R103, R105, R209). -/
def decodeChecks (cfg : Cfg) (h : Header) : List (Bool × FieldId) :=
  [ (h.b0.extractLsb 7 3 != fmtTypeValue, .fmtType),
    (h.b0.extractLsb 2 0 != cfg.routing, .routing),
    (h.b1.extractLsb 6 4 != tcValue, .trafficClass),
    (h.b1 &&& 0x8F != 0, .rsvdB1),
    (h.b2.extractLsb 7 7 != tdValue, .td),
    (h.b2.extractLsb 6 6 != epValue, .ep),
    (h.b2.extractLsb 5 4 != cfg.attr, .attr),
    (h.b2.extractLsb 3 2 != 0, .rsvdB2),
    (h.b6.extractLsb 7 6 != 0, .rsvdB6),
    (h.b6.extractLsb 3 0 != cfg.subcode, .subcode),
    (h.b7 != msgCode, .msgCode),
    (h.b10 != lowByte vendorIdValue || h.b11 != highByte vendorIdValue, .vendorId),
    (decide (headerPad h > 4 * headerLength h), .padLen) ]

/-- The descriptor a header holds (R103). -/
def unpackHeader (h : Header) : FrameDescriptor :=
  { fmtType := h.b0.extractLsb 7 3,
    routing := h.b0.extractLsb 2 0,
    tc := h.b1.extractLsb 6 4,
    td := h.b2.extractLsb 7 7,
    ep := h.b2.extractLsb 6 6,
    attr := h.b2.extractLsb 5 4,
    lengthDwords := headerLength h,
    requesterId := u16le h.b4 h.b5,
    padLen := headerPad h,
    subcode := h.b6.extractLsb 3 0,
    messageCode := h.b7,
    targetId := u16le h.b8 h.b9,
    vendorId := u16le h.b10 h.b11 }

/-- DECODE_HDR as a function of its operand and CFG (R103). -/
def decodeHeader (cfg : Cfg) (h : Header) : Except CmdError FrameDescriptor :=
  match firstFailure (decodeChecks cfg h) with
  | some f => .error (.malformedFrame f)
  | none => .ok (unpackHeader h)

/-- ENCODE_HDR (R100): `DESC` to `HDR`. -/
def execEncodeHdr (s : State) : Host.Outcome State Fault Refusal :=
  .next (s.conclude (encodeHeader s.cfg s.ops.desc) writeHdr)

/-- DECODE_HDR (R103): `HDR` to `DESC`. -/
def execDecodeHdr (s : State) : Host.Outcome State Fault Refusal :=
  .next (s.conclude (decodeHeader s.cfg s.ops.hdr) writeDesc)

end Sys2Proof.Machine
end

