-- ==== Sys2Proof/Machine/FrameAssembler.lean ====
section
/-! DEFINITION. The padding calculator and the frame assembler: PAD_CALC and ASSEMBLE (41_frame_assembler.md). -/

namespace Sys2Proof.Machine

/-- The padding of a combined length (R140). -/
def padOf (c : Nat) : Nat := (4 - c % 4) % 4

/-- The DWORD length of a combined length (R140). -/
def dwordsOf (c : Nat) : Nat := (c + padOf c) / 4

/-- The descriptor ASSEMBLE builds: the fixed constants, CFG's fields, the computed lengths, the supplied ids (R144). -/
def assembleDescriptor (cfg : Cfg) (c : Nat) (rid tid : Id16) : FrameDescriptor :=
  { fmtType := fmtTypeValue, routing := cfg.routing, tc := tcValue, td := tdValue, ep := epValue, attr := cfg.attr,
    lengthDwords := dwordsOf c, requesterId := rid, padLen := padOf c, subcode := cfg.subcode, messageCode := msgCode,
    targetId := tid, vendorId := vendorIdValue }

/-- ASSEMBLE as a function of its operands and CFG (R144): PayloadTooLarge first (R145, R152), then FrameTooLarge (R147).
The tag is accepted and has no effect (R149). -/
def assembleFrame (cfg : Cfg) (mh pl : Bytes) (rid tid : Id16) (_tag : BitVec 8) : Except CmdError Bytes :=
  let c := mh.length + pl.length
  if dwordsOf c > lenMax then .error .payloadTooLarge
  else
    match encodeHeader cfg (assembleDescriptor cfg c rid tid) with
    | .error e => .error e
    | .ok h =>
      let f := headerBytes h ++ mh ++ pl ++ zeros (padOf c)
      if f.length > cfg.maxFrame then .error .frameTooLarge else .ok f

/-- PAD_CALC (R140): `COMBINED` to `PAD` and `NDW`. It never fails (R143). -/
def execPadCalc (s : State) : Host.Outcome State Fault Refusal :=
  .next (s.ok (writePadNdw (padOf s.ops.combined, dwordsOf s.ops.combined)))

/-- ASSEMBLE (R144): `MH`, `PL`, `RID`, `TID`, `TAG` to `FRAME`. -/
def execAssemble (s : State) : Host.Outcome State Fault Refusal :=
  .next (s.conclude (assembleFrame s.cfg s.ops.mh s.ops.pl s.ops.rid s.ops.tid s.ops.tag) writeFrame)

end Sys2Proof.Machine
end

