-- ==== Sys2Proof/Machine/FrameDisassembler.lean ====
section
/-! DEFINITION. The frame disassembler: DISASSEMBLE (42_frame_disassembler.md). -/

namespace Sys2Proof.Machine

/-- DISASSEMBLE as a function of its operands and CFG (R170), its checks in the order of R179: SHORT_HEADER, the checks of
DECODE_HDR, SHORT_REGION, SHORT_SPAN. The padding's content and any byte after the region are not looked at (R176, R177),
nor is `CFG.MAX_FRAME` (R180). -/
def disassembleFrame (cfg : Cfg) (buf : Bytes) (hlen : Nat) : Except CmdError (Bytes × Bytes × FrameDescriptor) :=
  if buf.length < hdrLen then .error (.truncatedFrame .shortHeader)
  else
    match decodeHeader cfg (headerOf (memRead buf 0 hdrLen)) with
    | .error e => .error e
    | .ok d =>
      let region := 4 * d.lengthDwords
      if buf.length < hdrLen + region then .error (.truncatedFrame .shortRegion)
      else
        let span := region - d.padLen
        if span < hlen then .error (.truncatedFrame .shortSpan)
        else .ok (memRead buf hdrLen hlen, memRead buf (hdrLen + hlen) (span - hlen), d)

/-- DISASSEMBLE (R170): `BUF` and `HLEN` to `MH`, `PL` and `DESC`. -/
def execDisassemble (s : State) : Host.Outcome State Fault Refusal :=
  .next (s.conclude (disassembleFrame s.cfg s.ops.buf s.ops.hlen) writeSlices)

end Sys2Proof.Machine
end

