-- ==== Sys2Proof/Machine/Dispatch.lean ====
section
/-! DEFINITION. One arm per command of the opcode table. -/

namespace Sys2Proof.Machine

def exec (i : Instr) (s : State) : Host.Outcome State Fault Refusal :=
  match i with
  | .encodeHdr => Sys2Proof.Machine.execEncodeHdr s
  | .decodeHdr => Sys2Proof.Machine.execDecodeHdr s
  | .padCalc => Sys2Proof.Machine.execPadCalc s
  | .assemble => Sys2Proof.Machine.execAssemble s
  | .disassemble => Sys2Proof.Machine.execDisassemble s

end Sys2Proof.Machine
end

