-- ==== Sys2Proof/Machine/HostPort.lean ====
section
/-! DEFINITION. What the block does with one interaction of the host (60_exceptions.md R220, 70_reset_and_hazards.md). -/

namespace Sys2Proof.Machine

/-- Perform the command whose word is presented: the decoded operation, or for an illegal word the outcome
ILLEGAL_COMMAND, with no operation performed and no operand read (R76, R206). -/
def runCommand (cmd : CmdWord) (s : State) : Host.Outcome State Fault Refusal :=
  match decode cmd with
  | .ok i => exec i s
  | .error r => .next (s.raise (.illegalCommand r))

/-- One interaction. A command is one indivisible step (R48, R240). A CFG write or an operand change during a command is
refused (R235, R236); a reset during it leaves no outcome (R230). A read has no side effect (R47); its value goes to the
host, outside the block. -/
def act (a : HostAction) (s : State) : Host.Outcome State Fault Refusal :=
  match a with
  | .reset => .next s.resetBlock
  | .writeCfg number value =>
    match cfgWrite s.cfg number value with
    | .ok c => .next { s with cfg := c }
    | .error r => .refused r
  | .command cmd ops => runCommand cmd (s.present ops)
  | .disturbed _ _ .cfgWrite => .refused .cfgWriteDuringCommand
  | .disturbed _ _ .operandChange => .refused .operandChangeDuringCommand
  | .disturbed _ _ .reset => .next s.resetBlock
  | .readPort p =>
    match s.readPort p with
    | .ok _ => .next s
    | .error f => .fault f

/-- The state in which the next command is already presented: its word, with the operands the ports carry. -/
def presentWord (s : State) (cmd : CmdWord) : State := { s with host := .command cmd s.ops :: s.host }

end Sys2Proof.Machine
end

