-- ==== Sys2Proof/Machine/Step.lean ====
section
/-! DEFINITION. One step: the host's next interaction, or waiting for one. -/

namespace Sys2Proof.Machine

/-- The block performs the host's next interaction; with none to come it waits and nothing changes (R230, R240; log 1). -/
def step (s : State) : Host.Outcome State Fault Refusal :=
  match s.host with
  | [] => .next s
  | a :: rest => act a { s with host := rest }

/-- `s` with the instruction of `nbits` bits `w` presented as the host's next command, together with the operands the
ports carry (R74): the block fetches nothing (R25), and the command port is where its next instruction comes from. -/
def State.withFetchWord (s : State) (nbits w : Nat) : State := presentWord s (tableWord nbits w)

end Sys2Proof.Machine
end

