-- ==== Sys2Proof/Machine/Endpoint.lean ====
section
/-! DEFINITION. The Binding Endpoint's pseudo-operations TRANSMIT and RECEIVE (30_encoding.md R92): host sequences over the
block's commands. The endpoint and the transport are outside the block (00_scope.md R5, 10_state.md R31); what they supply
is an argument here. -/

namespace Sys2Proof.Machine

/-- The Binding Endpoint's own state that reaches the block: its BDF (R31). Its transport handle is outside (R5). -/
structure Endpoint where
  bdf : Id16
  deriving DecidableEq, Repr

/-- The command TRANSMIT issues: ASSEMBLE with the endpoint's BDF as the requester id (R92, D37). -/
def transmitCommand (ep : Endpoint) (mh pl : Bytes) (tid : Id16) (tag : BitVec 8) : HostAction :=
  .command (encode .assemble) { operandsAtRest with mh := mh, pl := pl, rid := ep.bdf, tid := tid, tag := tag }

/-- Whether the outcome on the result port is OK (R92). -/
def State.statusIsOk (s : State) : Bool :=
  match s.res with
  | some w => resStatus w == statusOk
  | none => false

/-- What TRANSMIT hands to `transport.write` after its command: the frame on OK, otherwise nothing (R92, R221). -/
def transportWrite (s : State) : Option Bytes := if s.statusIsOk then s.results.frame else none

/-- The `max_len` of RECEIVE's `transport.read` (R92, C12). -/
def receiveReadLength (s : State) : Nat := s.cfg.maxFrame

/-- The command RECEIVE issues on the bytes the transport read (R92). -/
def receiveCommand (buf : Bytes) (hlen : Nat) : HostAction :=
  .command (encode .disassemble) { operandsAtRest with buf := buf, hlen := hlen }

/-- What RECEIVE hands to the core stack after its command: `(MH, PL)` on OK; otherwise the buffer is dropped (R92, R221). -/
def coreStackInput (s : State) : Option (Bytes × Bytes) :=
  if s.statusIsOk then
    match s.results.mh, s.results.pl with
    | some mh, some pl => some (mh, pl)
    | _, _ => none
  else none

/-- Perform one host interaction for its sequence, and hand on what `take` finds in the state after it. -/
def hostSequence {α : Type} (a : HostAction) (take : State → Option α) (s : State) :
    Host.Outcome (State × Option α) Fault Refusal :=
  match act a s with
  | .next t => .next (t, take t)
  | .fault f => .fault f
  | .refused r => .refused r

/-- TRANSMIT: the block's state after it and the bytes written to the transport, if any (R92). -/
def transmit (ep : Endpoint) (mh pl : Bytes) (tid : Id16) (tag : BitVec 8) (s : State) :
    Host.Outcome (State × Option Bytes) Fault Refusal :=
  hostSequence (transmitCommand ep mh pl tid tag) transportWrite s

/-- RECEIVE on the bytes the transport read: the block's state after it and what the core stack is handed, if anything
(R92). -/
def receive (buf : Bytes) (hlen : Nat) (s : State) : Host.Outcome (State × Option (Bytes × Bytes)) Fault Refusal :=
  hostSequence (receiveCommand buf hlen) coreStackInput s

end Sys2Proof.Machine
end

