-- ==== Sys2Proof/Machine/Assembler.lean ====
section
/-! DEFINITION. The command notation of 30_encoding.md R90 and R91: what a command line means to the block, and the reading
of its text. The notation has no effect on what a command does (D28). -/

namespace Sys2Proof.Machine

/-- The bytes a byte-string literal denotes (R91). -/
def byteExprValue : ByteExpr → Bytes
  | .lit bytes => bytes
  | .zeros n => zeros n
  | .append s t => byteExprValue s ++ byteExprValue t

/-- The descriptor a literal denotes: a field left out takes the value every legal header has (R91). The four fields with
no default are written in a well-formed literal. -/
def descExprValue (cfg : Cfg) (d : DescExpr) : FrameDescriptor :=
  let field {w : Nat} (written : Option Nat) (default : BitVec w) : BitVec w :=
    (written.map (BitVec.ofNat w)).getD default
  { fmtType := field d.fmtType fmtTypeValue, routing := field d.routing cfg.routing, tc := field d.tc tcValue,
    td := field d.td tdValue, ep := field d.ep epValue, attr := field d.attr cfg.attr,
    lengthDwords := d.lengthDwords.getD 0, requesterId := field d.requesterId 0, padLen := d.padLen.getD 0,
    subcode := field d.subcode cfg.subcode, messageCode := field d.messageCode msgCode,
    targetId := field d.targetId 0, vendorId := field d.vendorId vendorIdValue }

/-- What a line's operands put on the operand ports (R77, R90); `none` where they are not the operation's. -/
def lineOperands (cfg : Cfg) (l : Line) : Option OperandPorts :=
  match l.op, l.operands with
  | .encodeHdr, [.desc d] => some { operandsAtRest with desc := descExprValue cfg d }
  | .decodeHdr, [.bytes e] => some { operandsAtRest with hdr := headerOf (byteExprValue e) }
  | .padCalc, [.num n] => some { operandsAtRest with combined := n }
  | .assemble, [.bytes mh, .bytes pl, .num rid, .num tid, .num tag] =>
    some { operandsAtRest with mh := byteExprValue mh, pl := byteExprValue pl, rid := BitVec.ofNat 16 rid,
                               tid := BitVec.ofNat 16 tid, tag := BitVec.ofNat 8 tag }
  | .disassemble, [.bytes buf, .num hlen] => some { operandsAtRest with buf := byteExprValue buf, hlen := hlen }
  | _, _ => none

/-- The host interaction a well-formed command line stands for: the operation's one CMD word with the line's operands. A
label and a comment have no effect (R90). -/
def lineCommand (cfg : Cfg) (l : Line) : Option HostAction :=
  if l.wf then (lineOperands cfg l).map (.command (encode l.op)) else none

/-! The text of a line. -/

/-- A token: a run of letters, digits and underscores, or one other character. -/
inductive Token where
  | word (cs : List Char)
  | sym (c : Char)
  deriving DecidableEq, Repr

/-- The word read so far, if any, as a token. -/
def flushWord (cs : List Char) : List Token := if cs = [] then [] else [.word cs]

/-- The tokens of a text; white space only separates. `acc` is the word read so far. -/
def tokenize (acc : List Char) : List Char → List Token
  | [] => flushWord acc
  | c :: cs =>
    if c.isAlphanum || c = '_' then tokenize (acc ++ [c]) cs
    else flushWord acc ++ (if c.isWhitespace then [] else [.sym c]) ++ tokenize [] cs

/-- The value of a digit of base 16 or less. -/
def digitValue (c : Char) : Option Nat :=
  if c.isDigit then some (c.toNat - 48)
  else if 97 ≤ c.toNat ∧ c.toNat ≤ 102 then some (c.toNat - 87)
  else if 65 ≤ c.toNat ∧ c.toNat ≤ 70 then some (c.toNat - 55)
  else none

/-- The number a nonempty list of digits denotes in a base. -/
def digitsValue (base : Nat) (cs : List Char) : Option Nat :=
  if cs = [] then none
  else cs.foldl (fun acc c =>
    match acc, digitValue c with
    | some n, some v => if v < base then some (n * base + v) else none
    | _, _ => none) (some 0)

/-- A number: decimal, `0x..` or `0b..` (R91). -/
def numberValue : List Char → Option Nat
  | '0' :: 'x' :: cs => digitsValue 16 cs
  | '0' :: 'b' :: cs => digitsValue 2 cs
  | cs => digitsValue 10 cs

/-- One byte of a byte-string literal: two hexadecimal digits (R91). -/
def byteValue (cs : List Char) : Option Byte :=
  if cs.length = 2 then (digitsValue 16 cs).map (BitVec.ofNat 8) else none

/-- The bytes up to the closing bracket, and what follows it. -/
def bytesInBrackets : List Token → Option (Bytes × List Token)
  | .sym ']' :: rest => some ([], rest)
  | .word cs :: rest =>
    match byteValue cs, bytesInBrackets rest with
    | some b, some (bs, after) => some (b :: bs, after)
    | _, _ => none
  | _ => none

/-- One term of a byte-string operand: a bracketed literal or `zeros(n)` (R91). -/
def byteTerm : List Token → Option (ByteExpr × List Token)
  | .sym '[' :: rest => (bytesInBrackets rest).map fun r => (.lit r.1, r.2)
  | .word f :: .sym '(' :: .word n :: .sym ')' :: rest =>
    if f = "zeros".toList then (numberValue n).map fun v => (.zeros v, rest) else none
  | _ => none

/-- A byte-string operand: terms joined by `++` (R91), at most `fuel` of them. -/
def byteOperand : Nat → List Token → Option (ByteExpr × List Token)
  | 0, _ => none
  | fuel + 1, ts =>
    match byteTerm ts with
    | some (e, .sym '+' :: .sym '+' :: rest) => (byteOperand fuel rest).map fun r => (.append e r.1, r.2)
    | other => other

/-- Write a field of a descriptor literal by its name of R26; a field is written once. -/
def writeField (d : DescExpr) (name : List Char) (v : Nat) : Option DescExpr :=
  let once (slot : Option Nat) (d' : DescExpr) : Option DescExpr := if slot = none then some d' else none
  if name = "fmt_type".toList then once d.fmtType { d with fmtType := some v }
  else if name = "routing".toList then once d.routing { d with routing := some v }
  else if name = "tc".toList then once d.tc { d with tc := some v }
  else if name = "td".toList then once d.td { d with td := some v }
  else if name = "ep".toList then once d.ep { d with ep := some v }
  else if name = "attr".toList then once d.attr { d with attr := some v }
  else if name = "length_dwords".toList then once d.lengthDwords { d with lengthDwords := some v }
  else if name = "requester_id".toList then once d.requesterId { d with requesterId := some v }
  else if name = "pad_len".toList then once d.padLen { d with padLen := some v }
  else if name = "subcode".toList then once d.subcode { d with subcode := some v }
  else if name = "message_code".toList then once d.messageCode { d with messageCode := some v }
  else if name = "target_id".toList then once d.targetId { d with targetId := some v }
  else if name = "vendor_id".toList then once d.vendorId { d with vendorId := some v }
  else none

/-- The opening brace of a descriptor literal. -/
def openBrace : Char := Char.ofNat 123

/-- The closing brace of a descriptor literal. -/
def closeBrace : Char := Char.ofNat 125

/-- The fields `name=value` up to the closing brace, and what follows it. -/
def descFields (d : DescExpr) : List Token → Option (DescExpr × List Token)
  | .word name :: .sym eq :: .word value :: .sym after :: rest =>
    if eq = '=' then
      match (numberValue value).bind (writeField d name) with
      | some d' =>
        if after = closeBrace then some (d', rest)
        else if after = ',' then descFields d' rest
        else none
      | none => none
    else none
  | _ => none

/-- One operand (R90, R91). -/
def operand (ts : List Token) : Option (OperandExpr × List Token) :=
  match ts with
  | .sym c :: rest =>
    if c = openBrace then (descFields {} rest).map fun r => (.desc r.1, r.2)
    else (byteOperand ts.length ts).map fun r => (.bytes r.1, r.2)
  | .word cs :: rest =>
    match numberValue cs with
    | some n => some (.num n, rest)
    | none => (byteOperand ts.length ts).map fun r => (.bytes r.1, r.2)
  | [] => none

/-- Operands separated by commas, to the end of the line (R90), at most `fuel` of them. -/
def operands : Nat → List Token → Option (List OperandExpr)
  | 0, _ => none
  | fuel + 1, ts =>
    match operand ts with
    | some (o, []) => some [o]
    | some (o, .sym ',' :: rest) => (operands fuel rest).map (o :: ·)
    | _ => none

/-- The operation a mnemonic names (R75). -/
def mnemonicOf (cs : List Char) : Option Instr :=
  if cs = "ENCODE_HDR".toList then some .encodeHdr
  else if cs = "DECODE_HDR".toList then some .decodeHdr
  else if cs = "PAD_CALC".toList then some .padCalc
  else if cs = "ASSEMBLE".toList then some .assemble
  else if cs = "DISASSEMBLE".toList then some .disassemble
  else none

/-- A mnemonic and its operands. -/
def instruction (label comment : Option (List Char)) : List Token → Option Line
  | .word m :: rest =>
    match mnemonicOf m, operands rest.length rest with
    | some op, some os => some { label := label, op := op, operands := os, comment := comment }
    | _, _ => none
  | _ => none

/-- A line of text: an optional `label:`, a mnemonic with its operands, an optional comment after `;` (R90). `none` for a
text that is no command line, or whose operands are not its operation's. -/
def parseLine (text : List Char) : Option Line :=
  let code := text.takeWhile (· ≠ ';')
  let comment := match text.dropWhile (· ≠ ';') with
    | [] => none
    | _ :: cs => some cs
  let line := match tokenize [] code with
    | .word label :: .sym ':' :: rest => instruction (some label) comment rest
    | ts => instruction none comment ts
  line.filter Line.wf

/-- The program a list of lines is for the host of a block configured as `cfg`: one command a line, in order (R90). -/
def program (cfg : Cfg) (lines : List (List Char)) : Option (List HostAction) :=
  lines.mapM fun text => (parseLine text).bind (lineCommand cfg)

end Sys2Proof.Machine
end

