-- ==== Sys2Proof/Safety.lean ====
section
/-! DEFINITION. What counts as a safe run, in the terms the statements use: when the host keeps its duties, when a command
completes, which ports hold a value, which configuration a header is legal for, and the invariant of the result ports. -/

namespace Sys2Proof.Machine

/-- The host keeps its duties in this interaction: it does not disturb a command (R235, R236) and it writes only registers
and values of the map of R21. A reset may come at any time (R230). A read is a duty about the ports' contents, so it is not
among these. -/
def HostAction.dutiful : HostAction → Bool
  | .reset => true
  | .writeCfg number value => cfgWriteLegal number value
  | .command _ _ => true
  | .disturbed _ _ d => decide (d = .reset)
  | .readPort _ => false

/-- A command completes: a next state that holds its outcome (R13), OK or an error, as the result word (R78). -/
def Completes (o : Host.Outcome State Fault Refusal) : Prop := ∃ t r, o = .next t ∧ t.res = some r

/-- The port holds a value for the host to read. -/
def State.holdsValue (s : State) : ResultPort → Bool
  | .res => s.res.isSome
  | .hdr => s.results.hdr.isSome
  | .desc => s.results.desc.isSome
  | .pad => s.results.pad.isSome
  | .ndw => s.results.ndw.isSome
  | .frame => s.results.frame.isSome
  | .mh => s.results.mh.isSome
  | .pl => s.results.pl.isSome

/-- The result ports of each operation (the last column of R77's table), written only on OK. -/
def resultPortsOf : Instr → List ResultPort
  | .encodeHdr => [.hdr]
  | .decodeHdr => [.desc]
  | .padCalc => [.pad, .ndw]
  | .assemble => [.frame]
  | .disassemble => [.mh, .pl, .desc]

/-- The fixed fields of a descriptor have the values every legal header has under `cfg` (R26, second table column). -/
def FixedFields (cfg : Cfg) (d : FrameDescriptor) : Prop :=
  d.fmtType = 0b01110 ∧ d.routing = cfg.routing ∧ d.tc = 0 ∧ d.td = 0 ∧ d.ep = 0 ∧ d.attr = cfg.attr ∧
    d.subcode = cfg.subcode ∧ d.messageCode = 0x7F ∧ d.vendorId = 0xB41A

/-- The bounds of the two natural fields (R26: 0 to 1023; 0 to 3, and at most `4 * length_dwords`). -/
def LengthBounds (d : FrameDescriptor) : Prop :=
  d.lengthDwords ≤ 1023 ∧ d.padLen ≤ 3 ∧ d.padLen ≤ 4 * d.lengthDwords

/-- A descriptor that ENCODE_HDR packs (R26, R100). -/
def LegalDescriptor (cfg : Cfg) (d : FrameDescriptor) : Prop := FixedFields cfg d ∧ LengthBounds d

/-- The length a header declares, as a number: the two low bits of byte 2, then byte 3 (R71). -/
def declaredLength (h : Header) : Nat := (h.b2.toNat % 4) * 256 + h.b3.toNat

/-- The padding a header declares, as a number: byte 6 bits [5:4] (R66). -/
def declaredPad (h : Header) : Nat := h.b6.toNat / 16 % 4

/-- A header every byte of which has its value for a legal header under `cfg` (R60, the bit by bit table), and whose padding
is within its region. Said in numbers, not in the codec's own bit operations. -/
def LegalHeader (cfg : Cfg) (h : Header) : Prop :=
  h.b0.toNat = 0x70 + cfg.routing.toNat ∧ h.b1 = 0 ∧ h.b2.toNat / 4 = 4 * cfg.attr.toNat ∧
    h.b6.toNat / 64 = 0 ∧ h.b6.toNat % 16 = cfg.subcode.toNat ∧ h.b7 = 0x7F ∧ h.b10 = 0x1A ∧ h.b11 = 0xB4 ∧
    declaredPad h ≤ 4 * declaredLength h

/-- A result word has the layout of R78 and a STATUS and INFO of R73, R76, R79 and R80. -/
def ResWordLegal (w : ResWord) : Prop :=
  let status := w.toNat % 16
  let info := w.toNat / 256
  w.toNat / 16 % 16 = 0 ∧
    (status = 0 ∧ info = 0 ∨ status = 1 ∧ 1 ≤ info ∧ info ≤ 14 ∨ status = 2 ∧ info = 0 ∨ status = 3 ∧ info = 0 ∨
      status = 4 ∧ 1 ≤ info ∧ info ≤ 14 ∨ status = 5 ∧ 1 ≤ info ∧ info ≤ 3 ∨ status = 6 ∧ 1 ≤ info ∧ info ≤ 2)

/-- A frame as ASSEMBLE emits it: 12 bytes and then the region its header declares, at most 4104 bytes (R151, R145), under
some configuration. -/
def FrameShape (f : Bytes) : Prop :=
  (∃ cfg, LegalHeader cfg (headerOf f)) ∧ f.length = 12 + 4 * declaredLength (headerOf f)

/-- The invariant of the result ports: a result is held only with RES = OK (R205), the result word is one of R79's, and
each result has the shape its operation gives it. It speaks of some configuration, since the host may have written CFG since
the command. -/
structure ResultsInv (s : State) : Prop where
  /-- RES holds only words of R78 and R79. -/
  word_legal : ∀ w, s.res = some w → ResWordLegal w
  /-- No result port holds a value unless the last command ended OK (R205). -/
  none_unless_ok : s.res ≠ some 0 → s.results = noResults
  /-- HDR holds only legal headers (R60, R100). -/
  hdr_legal : ∀ h, s.results.hdr = some h → ∃ cfg, LegalHeader cfg h
  /-- DESC holds only descriptors ENCODE_HDR would accept (R26, R108). -/
  desc_legal : ∀ d, s.results.desc = some d → ∃ cfg, LegalDescriptor cfg d
  /-- PAD and NDW are the padding and DWORD length of one combined length (R141, R142). -/
  pad_law : ∀ p n, s.results.pad = some p → s.results.ndw = some n → p ≤ 3 ∧ p ≤ 4 * n
  /-- FRAME holds only whole frames (R151). -/
  frame_shape : ∀ f, s.results.frame = some f → FrameShape f
  /-- MH and PL are the span the decoded header declares (R174, R178). -/
  span_law : ∀ mh pl, s.results.mh = some mh → s.results.pl = some pl →
    ∃ d, s.results.desc = some d ∧ mh.length + pl.length + d.padLen = 4 * d.lengthDwords

/-- How a command ended for the host: a next state with this result word and exactly these result ports, CFG and the host's
list as they were. (The operand ports are released: `CommandLeavesCfgAndReleasesOperands`.) -/
def EndsWith (s : State) (o : Host.Outcome State Fault Refusal) (res : ResWord) (r : ResultPorts) : Prop :=
  ∃ t, o = .next t ∧ t.res = some res ∧ t.results = r ∧ t.cfg = s.cfg ∧ t.host = s.host

/-- The result word with a STATUS and an INFO, as a number (R78; 95_test_vectors.md: `RES = (INFO << 8) | STATUS`). -/
def resOf (status info : Nat) : ResWord := BitVec.ofNat 32 (256 * info + status)

/-- The header carries this length, padding and these ids under `cfg`: all twelve bytes as numbers (R60, the bit by bit
table). -/
def HeaderCarries (cfg : Cfg) (h : Header) (len pad : Nat) (rid tid : Id16) : Prop :=
  h.b0.toNat = 0x70 + cfg.routing.toNat ∧ h.b1.toNat = 0 ∧ h.b2.toNat = 16 * cfg.attr.toNat + len / 256 ∧
    h.b3.toNat = len % 256 ∧ h.b4.toNat = rid.toNat % 256 ∧ h.b5.toNat = rid.toNat / 256 ∧
    h.b6.toNat = 16 * pad + cfg.subcode.toNat ∧ h.b7.toNat = 0x7F ∧ h.b8.toNat = tid.toNat % 256 ∧
    h.b9.toNat = tid.toNat / 256 ∧ h.b10.toNat = 0x1A ∧ h.b11.toNat = 0xB4

/-- The code of the first field of a descriptor that fails, in the order of R209's ENCODE_HDR row, with R73's codes;
`none` when no check fails. -/
def encodeFailure (cfg : Cfg) (d : FrameDescriptor) : Option Nat :=
  if d.fmtType.toNat ≠ 14 then some 1
  else if d.routing.toNat ≠ cfg.routing.toNat then some 2
  else if d.tc.toNat ≠ 0 then some 3
  else if d.td.toNat ≠ 0 then some 5
  else if d.ep.toNat ≠ 0 then some 6
  else if d.attr.toNat ≠ cfg.attr.toNat then some 7
  else if d.lengthDwords > 1023 then some 9
  else if d.padLen > 3 then some 11
  else if d.padLen > 4 * d.lengthDwords then some 11
  else if d.subcode.toNat ≠ cfg.subcode.toNat then some 12
  else if d.messageCode.toNat ≠ 0x7F then some 13
  else if d.vendorId.toNat ≠ 0xB41A then some 14
  else none

/-- The code of the first check that fails on a header, in the order of R209's DECODE_HDR row, with R73's codes; `none`
when no check fails. -/
def decodeFailure (cfg : Cfg) (h : Header) : Option Nat :=
  if h.b0.toNat / 8 ≠ 14 then some 1
  else if h.b0.toNat % 8 ≠ cfg.routing.toNat then some 2
  else if h.b1.toNat / 16 % 8 ≠ 0 then some 3
  else if h.b1.toNat / 128 ≠ 0 ∨ h.b1.toNat % 16 ≠ 0 then some 4
  else if h.b2.toNat / 128 ≠ 0 then some 5
  else if h.b2.toNat / 64 % 2 ≠ 0 then some 6
  else if h.b2.toNat / 16 % 4 ≠ cfg.attr.toNat then some 7
  else if h.b2.toNat / 4 % 4 ≠ 0 then some 8
  else if h.b6.toNat / 64 ≠ 0 then some 10
  else if h.b6.toNat % 16 ≠ cfg.subcode.toNat then some 12
  else if h.b7.toNat ≠ 0x7F then some 13
  else if h.b10.toNat ≠ 0x1A ∨ h.b11.toNat ≠ 0xB4 then some 14
  else if declaredPad h > 4 * declaredLength h then some 11
  else none

/-- The descriptor a legal header declares under `cfg`, in numbers (R26, R103). -/
def declaredDescriptor (cfg : Cfg) (h : Header) : FrameDescriptor :=
  { fmtType := 0b01110, routing := cfg.routing, tc := 0, td := 0, ep := 0, attr := cfg.attr,
    lengthDwords := declaredLength h, requesterId := BitVec.ofNat 16 (h.b4.toNat + 256 * h.b5.toNat),
    padLen := declaredPad h, subcode := cfg.subcode, messageCode := 0x7F,
    targetId := BitVec.ofNat 16 (h.b8.toNat + 256 * h.b9.toNat), vendorId := 0xB41A }

/-- The combined length of ASSEMBLE's operands (R144). -/
def combinedLength (s : State) : Nat := s.ops.mh.length + s.ops.pl.length

/-- The length of the span DISASSEMBLE finds in its buffer: the declared region without the declared padding (R174). -/
def spanLength (buf : Bytes) : Nat := 4 * declaredLength (headerOf buf) - declaredPad (headerOf buf)

end Sys2Proof.Machine
end

