-- ==== Sys2Proof/Certificates/Slice0/Obligations.lean ====
section
/-! DEFINITION. The statements for the provers. RES and the result ports are the host's view of a command's outcome. -/

open Sys2Proof Sys2Proof.Machine

/-! The machine: reset, waiting, command words, steps. -/

/-- R32, R230, R231: the whole state after reset. CFG.MAX_FRAME is the source's; the other three values are the spec's own
decisions (D6, D9, D11, D32 of 92_eei_decisions.md). That the host's list, a field of the model's own, is empty is log 1; what
the operand ports carry while no operand exists is the model's choice (log 2). -/
def Obligations.ResetStateHoldsCfgDefaultsAndNothingElse : Prop :=
  State.reset.cfg.maxFrame = 1024 ∧ State.reset.cfg.routing = 0b000 ∧ State.reset.cfg.attr = 0b01 ∧
    State.reset.cfg.subcode = 0x0 ∧ State.reset.res = none ∧ State.reset.results = noResults ∧
    State.reset.host = [] ∧ State.reset.ops = operandsAtRest

/-- R230: a reset between commands, or during one, leaves CFG at its reset values and no result; the command it interrupts
has no outcome (93 Part 1 row 8). The spec's own decision D32. That the host's later actions stay and the operand ports rest
is the model's choice (logs 2 and 8). -/
def Obligations.ResetActionClearsTheBlock : Prop :=
  ∀ (s : State) (a : HostAction) (rest : List HostAction),
    s.host = a :: rest → (a = .reset ∨ ∃ w o, a = .disturbed w o .reset) →
      step s = .next { State.reset with host := rest }

/-- The invariant of the result ports holds at reset. -/
def Obligations.ResultsInvHoldsAtReset : Prop := ResultsInv State.reset

/-- Every step, from every state that has it, keeps the invariant of the result ports: result words are those of R78 and
R79, a result is held only with OK (R205), headers, descriptors, paddings, frames and spans have the shapes of R26, R60, R141,
R142, R151 and R174. -/
def Obligations.EveryStepKeepsResultsInv : Prop :=
  ∀ s t : State, ResultsInv s → step s = .next t → ResultsInv t

/-- R75: the five command words (the numbers are the spec's own decision D2). -/
def Obligations.CommandWordsDecodeToTheirOperations : Prop :=
  decode 0x00000000 = .ok .encodeHdr ∧ decode 0x00000001 = .ok .decodeHdr ∧ decode 0x00000002 = .ok .padCalc ∧
    decode 0x00000003 = .ok .assemble ∧ decode 0x00000004 = .ok .disassemble

/-- Decoding the word of a well-formed command gives it back. -/
def Obligations.DecodeOfEncodeIsTheCommand : Prop := ∀ i : Instr, i.wf = true → decode (encode i) = .ok i

/-- R74 to R76: every 32-bit word is the one word of an operation, or is rejected by name, OP being looked at before the
reserved bits (the spec's own decision D2). -/
def Obligations.DecodeClassifiesEveryWord : Prop :=
  ∀ w : CmdWord,
    (5 ≤ w.toNat % 8 → decode w = .error .reservedOp) ∧
    (w.toNat % 8 ≤ 4 → 8 ≤ w.toNat → decode w = .error .reservedBits) ∧
    (w.toNat ≤ 4 → ∃ i, decode w = .ok i ∧ encode i = w)

/-- R76, R206: an illegal word is answered with ILLEGAL_COMMAND, reason 1 for a reserved OP and 2 for reserved bits; nothing
else is written (the spec's own decision D2). -/
def Obligations.IllegalWordAnswersIllegalCommand : Prop :=
  ∀ (s : State) (w : CmdWord) (o : OperandPorts) (rest : List HostAction),
    s.host = .command w o :: rest → 5 ≤ w.toNat →
      EndsWith { s with host := rest } (step s) (resOf 6 (if 5 ≤ w.toNat % 8 then 1 else 2)) noResults

/-- A step runs the decoded command: with a command next in the host's list whose word decodes to a well-formed `i`, the
step is `exec i` on the state with that command's operands on the ports, the earlier results gone and the command taken off
the list. And the same of a word placed by `withFetchWord`. -/
def Obligations.StepRunsTheDecodedCommand : Prop :=
  (∀ (s : State) (w : CmdWord) (o : OperandPorts) (rest : List HostAction) (i : Instr),
    s.host = .command w o :: rest → decode w = .ok i → i.wf = true →
      step s = exec i { s with host := rest, ops := o, res := none, results := noResults }) ∧
  (∀ (s : State) (nbits n : Nat) (i : Instr), decodeTableWord nbits n = some i → i.wf = true →
    step (s.withFetchWord nbits n) = exec i { s with res := none, results := noResults })

/-- With no action of the host to come the block waits and nothing changes: the model's reading of R230 "after reset it
waits for a command" (log 1). -/
def Obligations.BlockWithoutHostActionWaits : Prop := ∀ s : State, s.host = [] → step s = .next s

/-- R73, R78, R79, R80: the result words, as 95_test_vectors.md lists them (the numbers are the spec's own decision D3). -/
def Obligations.ResultWordsHaveTheListedCodes : Prop :=
  resOk = 0x00000000 ∧
    (∀ f n, (f, n) ∈ [(FieldId.noField, 0), (.fmtType, 1), (.routing, 2), (.trafficClass, 3), (.rsvdB1, 4), (.td, 5), (.ep, 6),
        (.attr, 7), (.rsvdB2, 8), (.length, 9), (.rsvdB6, 10), (.padLen, 11), (.subcode, 12), (.msgCode, 13), (.vendorId, 14)] →
      resError (.encodingError f) = resOf 1 n ∧ resError (.malformedFrame f) = resOf 4 n) ∧
    resError .payloadTooLarge = 0x00000002 ∧ resError .frameTooLarge = 0x00000003 ∧
    resError (.truncatedFrame .shortHeader) = 0x00000105 ∧ resError (.truncatedFrame .shortRegion) = 0x00000205 ∧
    resError (.truncatedFrame .shortSpan) = 0x00000305 ∧
    resError (.illegalCommand .reservedOp) = 0x00000106 ∧ resError (.illegalCommand .reservedBits) = 0x00000206

/-! The header codec. -/

/-- R100: ENCODE_HDR completes on every encodable descriptor, with the twelve bytes of R60's table. The bit positions of bytes
0 to 2 are the spec's own decisions D5, D7, D8, the padding bound D16. -/
def Obligations.EncodeHdrPacksEveryEncodableDescriptor : Prop :=
  ∀ s : State, LegalDescriptor s.cfg s.ops.desc →
    ∃ h, EndsWith s (exec .encodeHdr s) (resOf 0 0) { noResults with hdr := some h } ∧
      HeaderCarries s.cfg h s.ops.desc.lengthDwords s.ops.desc.padLen s.ops.desc.requesterId s.ops.desc.targetId

/-- R100, R101, R201, R209: ENCODE_HDR reports the first failing field in the fixed order, and is OK when none fails. The
checks and their order are the spec's own decisions D16, D19, D20, the codes D3. -/
def Obligations.EncodeHdrReportsTheFirstFailingField : Prop :=
  ∀ s : State,
    match encodeFailure s.cfg s.ops.desc with
    | some code => EndsWith s (exec .encodeHdr s) (resOf 1 code) noResults
    | none => ∃ h, EndsWith s (exec .encodeHdr s) (resOf 0 0) { noResults with hdr := some h }

/-- R103: DECODE_HDR completes on every legal header, with the descriptor the header declares. The layout is the spec's own
decisions D5, D7, D8, D10, the padding bound D16. -/
def Obligations.DecodeHdrUnpacksEveryLegalHeader : Prop :=
  ∀ s : State, LegalHeader s.cfg s.ops.hdr →
    EndsWith s (exec .decodeHdr s) (resOf 0 0) { noResults with desc := some (declaredDescriptor s.cfg s.ops.hdr) }

/-- R103, R105, R204, R209: DECODE_HDR reports the first failing check in the fixed order, and is OK when none fails. The order
is the spec's own decision D19, the codes D3, the reserved bits D12. -/
def Obligations.DecodeHdrReportsTheFirstFailingCheck : Prop :=
  ∀ s : State,
    match decodeFailure s.cfg s.ops.hdr with
    | some code => EndsWith s (exec .decodeHdr s) (resOf 4 code) noResults
    | none => ∃ d, EndsWith s (exec .decodeHdr s) (resOf 0 0) { noResults with desc := some d }

/-- The round trip of 40_header_codec.md (R107): a header ENCODE_HDR wrote, presented to DECODE_HDR under the same CFG, gives
back the descriptor, with every field at every value the encoding admits. -/
def Obligations.EncodeThenDecodeReturnsTheDescriptor : Prop :=
  ∀ (s t u : State) (h : Header), exec .encodeHdr s = .next t → t.results.hdr = some h →
    u.cfg = s.cfg → u.ops.hdr = h →
      EndsWith u (exec .decodeHdr u) (resOf 0 0) { noResults with desc := some s.ops.desc }

/-- The round trip of 40_header_codec.md (R108): a descriptor DECODE_HDR gave, presented to ENCODE_HDR under the same CFG,
gives back the header, all 96 bits. -/
def Obligations.DecodeThenEncodeReturnsTheHeader : Prop :=
  ∀ (s t u : State) (d : FrameDescriptor), exec .decodeHdr s = .next t → t.results.desc = some d →
    u.cfg = s.cfg → u.ops.desc = d →
      EndsWith u (exec .encodeHdr u) (resOf 0 0) { noResults with hdr := some s.ops.hdr }

/-- R44, R64, R71: the length's two high bits are the low bits of byte 2 and its low eight bits are byte 3, on encode and on
decode. That they stand at bits [1:0] of byte 2 is the spec's own decision (D8, C8 of 90_conflicts.md; log 9). -/
def Obligations.LengthIsSplitHighBitsThenLowByte : Prop :=
  (∀ (s t : State) (h : Header), exec .encodeHdr s = .next t → t.results.hdr = some h →
    h.b2.toNat % 4 = s.ops.desc.lengthDwords / 256 ∧ h.b3.toNat = s.ops.desc.lengthDwords % 256) ∧
  (∀ (s t : State) (d : FrameDescriptor), exec .decodeHdr s = .next t → t.results.desc = some d →
    d.lengthDwords = (s.ops.hdr.b2.toNat % 4) * 256 + s.ops.hdr.b3.toNat)

/-- R43, R65, R68, R69: the 16-bit ids are little-endian on encode and on decode under every CFG, bytes 10 and 11 of a header
are 0x1A and 0xB4, and any requester and target id is legal both ways. -/
def Obligations.SixteenBitIdsAreLittleEndian : Prop :=
  (∀ (s t : State) (h : Header), exec .encodeHdr s = .next t → t.results.hdr = some h →
    h.b4.toNat = s.ops.desc.requesterId.toNat % 256 ∧ h.b5.toNat = s.ops.desc.requesterId.toNat / 256 ∧
    h.b8.toNat = s.ops.desc.targetId.toNat % 256 ∧ h.b9.toNat = s.ops.desc.targetId.toNat / 256 ∧
    h.b10 = 0x1A ∧ h.b11 = 0xB4) ∧
  (∀ (s t : State) (d : FrameDescriptor), exec .decodeHdr s = .next t → t.results.desc = some d →
    d.requesterId.toNat = s.ops.hdr.b4.toNat + 256 * s.ops.hdr.b5.toNat ∧
    d.targetId.toNat = s.ops.hdr.b8.toNat + 256 * s.ops.hdr.b9.toNat ∧
    d.vendorId.toNat = s.ops.hdr.b10.toNat + 256 * s.ops.hdr.b11.toNat ∧
    s.ops.hdr.b10 = 0x1A ∧ s.ops.hdr.b11 = 0xB4) ∧
  (∀ (s t : State) (rid tid : Id16), exec .encodeHdr s = .next t → t.res = some resOk →
    ∃ u, exec .encodeHdr { s with ops := { s.ops with desc := { s.ops.desc with requesterId := rid, targetId := tid } } } =
      .next u ∧ u.res = some resOk) ∧
  (∀ (s t : State) (b4 b5 b8 b9 : Byte), exec .decodeHdr s = .next t → t.res = some resOk →
    ∃ u, exec .decodeHdr
        { s with ops := { s.ops with hdr := { s.ops.hdr with b4 := b4, b5 := b5, b8 := b8, b9 := b9 } } } = .next u ∧
      u.res = some resOk)

/-- R109: the two codec operations read only their operand and CFG, and write only their result port. -/
def Obligations.HeaderCodecIsPure : Prop :=
  (∀ s s' t : State, s.cfg = s'.cfg → s.ops.desc = s'.ops.desc → exec .encodeHdr s = .next t →
    (∃ t', exec .encodeHdr s' = .next t' ∧ t'.res = t.res ∧ t'.results = t.results) ∧
    t.cfg = s.cfg ∧ t.host = s.host ∧ t.results = { noResults with hdr := t.results.hdr }) ∧
  (∀ s s' t : State, s.cfg = s'.cfg → s.ops.hdr = s'.ops.hdr → exec .decodeHdr s = .next t →
    (∃ t', exec .decodeHdr s' = .next t' ∧ t'.res = t.res ∧ t'.results = t.results) ∧
    t.cfg = s.cfg ∧ t.host = s.host ∧ t.results = { noResults with desc := t.results.desc })

/-! The padding calculator and the assembler. -/

/-- R140 to R143: PAD_CALC completes on every length, with the least padding that makes it a multiple of 4 and the DWORD
length `ceil(c / 4)`, also past the 10-bit limit (a command of its own, and without a limit, by the spec's own decisions D2 and
D25). -/
def Obligations.PadCalcGivesLeastPaddingAndDwords : Prop :=
  ∀ s : State, ∃ p n,
    EndsWith s (exec .padCalc s) (resOf 0 0) { noResults with pad := some p, ndw := some n } ∧
      p ≤ 3 ∧ (s.ops.combined + p) % 4 = 0 ∧ (∀ q, (s.ops.combined + q) % 4 = 0 → p ≤ q) ∧
      n = (s.ops.combined + 3) / 4 ∧ 4 * n = s.ops.combined + p

/-- R144: ASSEMBLE completes on every input within both limits, with the header of R60's table, then MH, PL and zero padding.
The bit positions are the spec's own decisions D5, D7, D8, the frame bound D23. -/
def Obligations.AssembleBuildsTheFrame : Prop :=
  ∀ s : State, combinedLength s ≤ 4092 → 12 + 4 * ((combinedLength s + 3) / 4) ≤ s.cfg.maxFrame →
    ∃ h pad, EndsWith s (exec .assemble s) (resOf 0 0)
        { noResults with frame := some (headerBytes h ++ s.ops.mh ++ s.ops.pl ++ List.replicate pad 0x00) } ∧
      combinedLength s + pad = 4 * ((combinedLength s + 3) / 4) ∧
      HeaderCarries s.cfg h ((combinedLength s + 3) / 4) pad s.ops.rid s.ops.tid

/-- R145, R152, R202: ASSEMBLE raises PayloadTooLarge, with nothing written, exactly when `ceil(c / 4) > 1023`, that is
`c > 4092`, whatever CFG.MAX_FRAME is, so before FrameTooLarge. -/
def Obligations.AssembleRaisesPayloadTooLargeFirst : Prop :=
  ∀ s : State,
    ((combinedLength s + 3) / 4 > 1023 ↔ combinedLength s > 4092) ∧
    (combinedLength s > 4092 → EndsWith s (exec .assemble s) (resError .payloadTooLarge) noResults) ∧
    (∀ t, exec .assemble s = .next t → t.res = some (resError .payloadTooLarge) → combinedLength s > 4092) ∧
    resInfo (resError .payloadTooLarge) = 0

/-- R147, R203: with PayloadTooLarge ruled out, ASSEMBLE raises FrameTooLarge, with nothing written, exactly when the whole
frame, header included, exceeds CFG.MAX_FRAME (that the header counts is the spec's own decision D23). -/
def Obligations.AssembleRaisesFrameTooLarge : Prop :=
  ∀ s : State,
    (combinedLength s ≤ 4092 → s.cfg.maxFrame < 12 + 4 * ((combinedLength s + 3) / 4) →
      EndsWith s (exec .assemble s) (resOf 3 0) noResults) ∧
    (∀ t, exec .assemble s = .next t → t.res = some (resOf 3 0) →
      combinedLength s ≤ 4092 ∧ s.cfg.maxFrame < 12 + 4 * ((combinedLength s + 3) / 4))

/-- R146, R150: ASSEMBLE's only outcomes are OK, PayloadTooLarge and FrameTooLarge; it is OK exactly within both limits, and
with the default MAX_FRAME exactly when the combined length is at most 1012. -/
def Obligations.AssembleIsOkExactlyWithinLimits : Prop :=
  ∀ s t : State, exec .assemble s = .next t →
    (t.res = some (resOf 0 0) ∨ t.res = some (resOf 2 0) ∨ t.res = some (resOf 3 0)) ∧
    (t.res = some (resOf 0 0) ↔ combinedLength s ≤ 4092 ∧ 12 + 4 * ((combinedLength s + 3) / 4) ≤ s.cfg.maxFrame) ∧
    (s.cfg.maxFrame = 1024 → (t.res = some (resOf 0 0) ↔ combinedLength s ≤ 1012))

/-- R42, R148: in a frame ASSEMBLE emits the 12 header bytes come first, then the MCTP header bytes, then the payload bytes,
then the padding, whose bytes are all 0x00. -/
def Obligations.AssembledFrameIsInWireOrderWithZeroPadding : Prop :=
  ∀ (s t : State) (f : Bytes), exec .assemble s = .next t → t.results.frame = some f →
    ∃ header pad, f = header ++ s.ops.mh ++ s.ops.pl ++ List.replicate pad 0x00 ∧ header.length = 12 ∧
      pad = (4 - combinedLength s % 4) % 4 ∧ pad = declaredPad (headerOf f)

/-- R151: the shape of every frame ASSEMBLE emits. -/
def Obligations.AssembledFrameHasDeclaredAlignedLength : Prop :=
  ∀ (s t : State) (f : Bytes), exec .assemble s = .next t → t.results.frame = some f →
    f.length = 12 + 4 * declaredLength (headerOf f) ∧ combinedLength s ≤ f.length - 12 ∧ f.length ≤ s.cfg.maxFrame ∧
      (f.drop 12).take (combinedLength s) = s.ops.mh ++ s.ops.pl ∧ ∀ b ∈ f.drop (12 + combinedLength s), b = 0x00

/-- R149: the TAG operand has no effect on any outcome or result (the spec's own decision D13). -/
def Obligations.AssembleIgnoresTag : Prop :=
  ∀ (s : State) (tag : BitVec 8), exec .assemble { s with ops := { s.ops with tag := tag } } = exec .assemble s

/-! The disassembler. -/

/-- R170: DISASSEMBLE completes on every buffer that starts with a legal header, holds its region and has a span of at least
HLEN bytes: MH and PL are the two slices of the span, DESC what the header declares. HLEN and DESC are the spec's own decisions
D17 and D4, the thresholds D14. -/
def Obligations.DisassembleSlicesEveryLegalFrame : Prop :=
  ∀ s : State, LegalHeader s.cfg (headerOf s.ops.buf) → 12 + 4 * declaredLength (headerOf s.ops.buf) ≤ s.ops.buf.length →
    s.ops.hlen ≤ spanLength s.ops.buf →
      EndsWith s (exec .disassemble s) (resOf 0 0)
        { noResults with
          mh := some ((s.ops.buf.drop 12).take s.ops.hlen),
          pl := some ((s.ops.buf.drop (12 + s.ops.hlen)).take (spanLength s.ops.buf - s.ops.hlen)),
          desc := some (declaredDescriptor s.cfg (headerOf s.ops.buf)) }

/-- R171, R173, R175, R179, R207, R209: DISASSEMBLE's checks and their order: SHORT_HEADER, the checks of DECODE_HDR in their
order, SHORT_REGION, SHORT_SPAN. The thresholds are the spec's own decision D14, SHORT_SPAN D17, the order D19, the codes D3. -/
def Obligations.DisassembleReportsTheFirstFailingCheck : Prop :=
  ∀ s : State,
    let h := headerOf s.ops.buf
    if s.ops.buf.length < 12 then EndsWith s (exec .disassemble s) (resOf 5 1) noResults
    else match decodeFailure s.cfg h with
      | some code => EndsWith s (exec .disassemble s) (resOf 4 code) noResults
      | none =>
        if s.ops.buf.length < 12 + 4 * declaredLength h then EndsWith s (exec .disassemble s) (resOf 5 2) noResults
        else if spanLength s.ops.buf < s.ops.hlen then EndsWith s (exec .disassemble s) (resOf 5 3) noResults
        else ∃ mh pl d, EndsWith s (exec .disassemble s) (resOf 0 0)
          { noResults with mh := some mh, pl := some pl, desc := some d }

/-- R172: DISASSEMBLE decodes `buf[0..12)` with DECODE_HDR; if DECODE_HDR raises MalformedFrame(field), DISASSEMBLE ends with
that same outcome and writes nothing. -/
def Obligations.DisassembleEndsAsDecodeHdrWhenMalformed : Prop :=
  ∀ (s u v : State) (f : FieldId), 12 ≤ s.ops.buf.length → u.cfg = s.cfg → u.ops.hdr = headerOf s.ops.buf →
    exec .decodeHdr u = .next v → v.res = some (resError (.malformedFrame f)) →
      EndsWith s (exec .disassemble s) (resError (.malformedFrame f)) noResults

/-- R174: on OK the results together are the first `S = R - pad_len` bytes of the region, `pad_len` being at most `R`, so that
`S` is a natural. -/
def Obligations.DisassembleStripsThePadding : Prop :=
  ∀ (s t : State) (mh pl : Bytes) (d : FrameDescriptor), exec .disassemble s = .next t → t.results.mh = some mh →
    t.results.pl = some pl → t.results.desc = some d →
      d.padLen ≤ 4 * d.lengthDwords ∧ mh ++ pl = (s.ops.buf.drop 12).take (4 * d.lengthDwords - d.padLen) ∧
        (mh ++ pl).length = 4 * d.lengthDwords - d.padLen

/-- R176: the padding's content is not checked and appears in no result: two buffers that differ only in the declared padding
have the same outcome. -/
def Obligations.DisassembleIgnoresPaddingContent : Prop :=
  ∀ (s : State) (front padding padding' after : Bytes),
    front.length = 12 + spanLength front → 12 ≤ front.length → padding.length = declaredPad (headerOf front) →
    padding'.length = padding.length →
      exec .disassemble { s with ops := { s.ops with buf := front ++ padding ++ after } } =
        exec .disassemble { s with ops := { s.ops with buf := front ++ padding' ++ after } }

/-- R177: bytes after the declared region change nothing (the spec's own decision D15). -/
def Obligations.DisassembleIgnoresBytesAfterTheRegion : Prop :=
  ∀ (s : State) (buf after : Bytes), 12 ≤ buf.length → 12 + 4 * declaredLength (headerOf buf) ≤ buf.length →
    exec .disassemble { s with ops := { s.ops with buf := buf ++ after } } =
      exec .disassemble { s with ops := { s.ops with buf := buf } }

/-- The round trip of 42_frame_disassembler.md (R181): a frame ASSEMBLE emitted, with any bytes after it, presented to
DISASSEMBLE under the same CFG with HLEN the length of the MCTP header, gives back MH and PL unchanged, and a descriptor with
the ids ASSEMBLE was given. -/
def Obligations.AssembleThenDisassembleReturnsTheOperands : Prop :=
  ∀ (s t u : State) (f after : Bytes), exec .assemble s = .next t → t.results.frame = some f →
    u.cfg = s.cfg → u.ops.buf = f ++ after → u.ops.hlen = s.ops.mh.length →
      ∃ d, EndsWith u (exec .disassemble u) (resOf 0 0)
          { noResults with mh := some s.ops.mh, pl := some s.ops.pl, desc := some d } ∧
        LegalDescriptor s.cfg d ∧ d.requesterId = s.ops.rid ∧ d.targetId = s.ops.tid ∧
        d.lengthDwords = (combinedLength s + 3) / 4 ∧ d.padLen = (4 - combinedLength s % 4) % 4

/-- R238: another HLEN splits the same span at another point, or gives SHORT_SPAN (the spec's own decision D17). -/
def Obligations.OtherHlenSplitsTheSameSpan : Prop :=
  ∀ (s t u : State) (f : Bytes), exec .assemble s = .next t → t.results.frame = some f →
    u.cfg = s.cfg → u.ops.buf = f →
      (u.ops.hlen ≤ combinedLength s → ∃ d, EndsWith u (exec .disassemble u) (resOf 0 0)
        { noResults with
          mh := some ((s.ops.mh ++ s.ops.pl).take u.ops.hlen),
          pl := some ((s.ops.mh ++ s.ops.pl).drop u.ops.hlen),
          desc := some d }) ∧
      (combinedLength s < u.ops.hlen → EndsWith u (exec .disassemble u) (resOf 5 3) noResults)

/-! Outcomes, the host, the whole machine. -/

/-- R241: every command has an outcome, held as the result word, for every operand value and every CFG, and so has every
command word. -/
def Obligations.EveryCommandIsTotal : Prop :=
  (∀ (i : Instr) (s : State), Completes (exec i s)) ∧ ∀ (w : CmdWord) (s : State), Completes (runCommand w s)

/-- R21, R28: a command keeps CFG and the host's list. That the operand ports rest after it is the model's choice (logs 2
and 4). -/
def Obligations.CommandLeavesCfgAndReleasesOperands : Prop :=
  ∀ (w : CmdWord) (s t : State), runCommand w s = .next t →
    t.cfg = s.cfg ∧ t.host = s.host ∧ t.ops = operandsAtRest ∧ ∃ r, t.res = some r

/-- R205: an error outcome carries only the result word: no result port is written and CFG is as it was (the spec's own
decision D30). -/
def Obligations.ErrorWritesNoResultPort : Prop :=
  ∀ (w : CmdWord) (s t : State), runCommand w s = .next t → t.res ≠ some (resOf 0 0) →
    t.results = noResults ∧ t.cfg = s.cfg ∧ t.host = s.host

/-- R20: CFG is all that lasts from one command to the next: with the same CFG and the same command next, two states go to
the same state whatever else they hold. -/
def Obligations.OnlyCfgLastsBetweenCommands : Prop :=
  ∀ (s s' : State) (w : CmdWord) (o : OperandPorts) (rest : List HostAction),
    s.cfg = s'.cfg → s.host = .command w o :: rest → s'.host = s.host → step s = step s'

/-- R208: no error is fatal: after any outcome of a command the block accepts the next command, whatever it is, with the same
CFG; and the same command with the same operands ends in the same outcome again. -/
def Obligations.NoErrorIsFatalAndRepeatedCommandsRecur : Prop :=
  ∀ (s : State) (w w' : CmdWord) (o o' : OperandPorts) (rest : List HostAction),
    s.host = .command w o :: .command w' o' :: rest →
      ∃ t u, step s = .next t ∧ step t = .next u ∧ t.cfg = s.cfg ∧ u.cfg = s.cfg ∧ (∃ r, u.res = some r) ∧
        (w' = w → o' = o → u.res = t.res ∧ u.results = t.results)

/-- R51, R216: a command's outcome is the same whichever commands the host had issued before it, so commands issued together
have the same outcomes in any order. -/
def Obligations.EarlierCommandsDoNotChangeAnOutcome : Prop :=
  ∀ (s : State) (earlier : List (CmdWord × OperandPorts)) (w : CmdWord) (o : OperandPorts),
    Sys2Proof.core.run (earlier.length + 1)
        { s with host := earlier.map (fun c => HostAction.command c.1 c.2) ++ [.command w o] } =
      Sys2Proof.core.run 1 { s with host := [.command w o] }

/-- R21, R232: a host write by number changes that field of CFG alone, for every legal value (the numbers are the spec's own
decision D33). That another number, or a value outside the legal ones, is refused is the model's choice (log 7); that a write
leaves the result ports is log 3. -/
def Obligations.HostWritesCfgByNumber : Prop :=
  ∀ (s : State) (number value : Nat) (rest : List HostAction), s.host = .writeCfg number value :: rest →
    (number = 0 → step s = .next { s with host := rest, cfg := { s.cfg with maxFrame := value } }) ∧
    (number = 1 → value ≤ 7 → step s = .next { s with host := rest, cfg := { s.cfg with routing := BitVec.ofNat 3 value } }) ∧
    (number = 2 → value ≤ 3 → step s = .next { s with host := rest, cfg := { s.cfg with attr := BitVec.ofNat 2 value } }) ∧
    (number = 3 → value ≤ 15 → step s = .next { s with host := rest, cfg := { s.cfg with subcode := BitVec.ofNat 4 value } }) ∧
    (number = 1 ∧ 7 < value ∨ number = 2 ∧ 3 < value ∨ number = 3 ∧ 15 < value →
      step s = .refused (.illegalCfgValue number value)) ∧
    (4 ≤ number → step s = .refused (.noSuchCfgRegister number))

/-- R21: no step changes CFG but a host write or a reset (access by commands is read-only; the host's access is the spec's own
decision D33). -/
def Obligations.OnlyHostWriteOrResetChangesCfg : Prop :=
  ∀ s t : State, step s = .next t → t.cfg ≠ s.cfg →
    ∃ a rest, s.host = a :: rest ∧
      (a = .reset ∨ (∃ w o, a = .disturbed w o .reset) ∨ ∃ number value, a = .writeCfg number value)

/-- R235, R236: a CFG write or an operand change during a command is refused (the spec's own decisions D29 and D33). -/
def Obligations.DisturbedCommandIsRefused : Prop :=
  ∀ (s : State) (w : CmdWord) (o : OperandPorts) (rest : List HostAction),
    (s.host = .disturbed w o .cfgWrite :: rest → step s = .refused .cfgWriteDuringCommand) ∧
    (s.host = .disturbed w o .operandChange :: rest → step s = .refused .operandChangeDuringCommand)

/-- A read of a result port faults exactly when the port holds no value, and otherwise changes nothing. Before any command no
port holds one (93_implementation_defined.md Part 1 row 14); after a command RES does, after an error no other (row 9), and
after OK those of its operation (R77) and no other, nor does one after an illegal word. That the ports of other operations
hold no value after OK, and that a read changes nothing, is deduced (log 6); that the ports hold their values until the
host reads them is the model's choice (log 3). -/
def Obligations.ReadingAnUnwrittenResultFaults : Prop :=
  (∀ (s : State) (p : ResultPort) (rest : List HostAction), s.host = .readPort p :: rest →
    (s.holdsValue p = false → step s = .fault (.noResult p)) ∧
    (s.holdsValue p = true → step s = .next { s with host := rest })) ∧
  (∀ p, State.reset.holdsValue p = false) ∧
  (∀ (i : Instr) (s t : State) (p : ResultPort), exec i s = .next t →
    (t.holdsValue p = true ↔ p = .res ∨ t.res = some (resOf 0 0) ∧ p ∈ resultPortsOf i)) ∧
  (∀ (w : CmdWord) (s t : State) (p : ResultPort), runCommand w s = .next t →
    t.res ≠ some (resOf 0 0) → (t.holdsValue p = true ↔ p = .res))

/-- R208, R241: while the host keeps its duties of R235, R236 and R21, the machine never stops, whatever commands, words,
operands and configuration writes it is given and however long it runs. -/
def Obligations.DutifulHostNeverStopsTheMachine : Prop :=
  ∀ (k : Nat) (s : State), (∀ a ∈ s.host, a.dutiful = true) → ∃ t, Sys2Proof.core.run k s = .next t

/-- R92, R221: TRANSMIT always completes; it writes to the transport the frame of ASSEMBLE with the endpoint's BDF as requester
id when both limits hold, and nothing otherwise, when the caller has RES (using the BDF is the spec's own decision D37; that
TRANSMIT is a definition over one host interaction is log 11). -/
def Obligations.TransmitWritesOnlyOnOk : Prop :=
  ∀ (ep : Endpoint) (mh pl : Bytes) (tid : Id16) (tag : BitVec 8) (s : State),
    (mh.length + pl.length ≤ 4092 → 12 + 4 * ((mh.length + pl.length + 3) / 4) ≤ s.cfg.maxFrame →
      ∃ t h pad, transmit ep mh pl tid tag s = .next (t, some (headerBytes h ++ mh ++ pl ++ List.replicate pad 0x00)) ∧
        t.res = some (resOf 0 0) ∧ t.cfg = s.cfg ∧ t.host = s.host ∧
        mh.length + pl.length + pad = 4 * ((mh.length + pl.length + 3) / 4) ∧
        HeaderCarries s.cfg h ((mh.length + pl.length + 3) / 4) pad ep.bdf tid) ∧
    (4092 < mh.length + pl.length ∨ s.cfg.maxFrame < 12 + 4 * ((mh.length + pl.length + 3) / 4) →
      ∃ t, transmit ep mh pl tid tag s = .next (t, none) ∧ t.cfg = s.cfg ∧ t.host = s.host ∧
        t.res = some (if 4092 < mh.length + pl.length then resOf 2 0 else resOf 3 0))

/-- R92, R221: RECEIVE always completes. A buffer that starts with a legal header, holds its region and has a span of at least
`hlen` bytes is handed to the core stack as the two slices of its span, whatever its padding and whatever comes after; every
other buffer is dropped. So a buffer that ASSEMBLE emitted under the same CFG is handed on as its MCTP header and payload.
RECEIVE is host level, the spec's own decision D37 (log 11); the thresholds are D14, `hlen` D17. -/
def Obligations.ReceiveHandsOnGoodFramesAndDropsMalformed : Prop :=
  (∀ (buf : Bytes) (hlen : Nat) (s : State), LegalHeader s.cfg (headerOf buf) →
    12 + 4 * declaredLength (headerOf buf) ≤ buf.length → hlen ≤ spanLength buf →
      ∃ t, receive buf hlen s = .next (t, some ((buf.drop 12).take hlen, (buf.drop (12 + hlen)).take (spanLength buf - hlen))) ∧
        t.cfg = s.cfg ∧ t.host = s.host) ∧
  (∀ (buf : Bytes) (hlen : Nat) (s : State),
    buf.length < 12 ∨ ¬ LegalHeader s.cfg (headerOf buf) ∨ buf.length < 12 + 4 * declaredLength (headerOf buf) ∨
      spanLength buf < hlen →
        ∃ t, receive buf hlen s = .next (t, none) ∧ t.cfg = s.cfg ∧ t.host = s.host ∧ t.results = noResults) ∧
  (∀ (s t u : State) (f after : Bytes), exec .assemble s = .next t → t.results.frame = some f → u.cfg = s.cfg →
    ∃ v, receive (f ++ after) s.ops.mh.length u = .next (v, some (s.ops.mh, s.ops.pl)) ∧ v.cfg = u.cfg ∧ v.host = u.host)

/-- R91: a descriptor literal that writes only its four required fields takes the value every legal header has in each other
field, so within the bounds ENCODE_HDR packs it under the same CFG (the notation is the spec's own decision D28). -/
def Obligations.DescriptorLiteralDefaultsAreEncodable : Prop :=
  ∀ (cfg : Cfg) (len pad rid tid : Nat), len ≤ 1023 → pad ≤ 3 → pad ≤ 4 * len → rid < 2 ^ 16 → tid < 2 ^ 16 →
    ∃ o, lineCommand cfg { op := .encodeHdr, operands := [.desc
          { lengthDwords := some len, padLen := some pad, requesterId := some rid, targetId := some tid }] } =
        some (.command 0x00000000 o) ∧
      LegalDescriptor cfg o.desc ∧ o.desc.lengthDwords = len ∧ o.desc.padLen = pad ∧ o.desc.requesterId.toNat = rid ∧
      o.desc.targetId.toNat = tid
end

