-- ==== Sys2Proof/Laws/State.lean ====
section
/-! SUPPORT. One lemma per field of State per update, and the shared operations that end a command. -/

namespace Sys2Proof.Machine

@[simp] theorem present_cfg (s : State) (o : OperandPorts) : (s.present o).cfg = s.cfg := rfl
@[simp] theorem present_ops (s : State) (o : OperandPorts) : (s.present o).ops = o := rfl
@[simp] theorem present_res (s : State) (o : OperandPorts) : (s.present o).res = none := rfl
@[simp] theorem present_results (s : State) (o : OperandPorts) : (s.present o).results = noResults := rfl
@[simp] theorem present_host (s : State) (o : OperandPorts) : (s.present o).host = s.host := rfl

@[simp] theorem ok_cfg (s : State) (r : ResultPorts) : (s.ok r).cfg = s.cfg := rfl
@[simp] theorem ok_ops (s : State) (r : ResultPorts) : (s.ok r).ops = operandsAtRest := rfl
@[simp] theorem ok_res (s : State) (r : ResultPorts) : (s.ok r).res = some resOk := rfl
@[simp] theorem ok_results (s : State) (r : ResultPorts) : (s.ok r).results = r := rfl
@[simp] theorem ok_host (s : State) (r : ResultPorts) : (s.ok r).host = s.host := rfl

@[simp] theorem raise_cfg (s : State) (e : CmdError) : (s.raise e).cfg = s.cfg := rfl
@[simp] theorem raise_ops (s : State) (e : CmdError) : (s.raise e).ops = operandsAtRest := rfl
@[simp] theorem raise_res (s : State) (e : CmdError) : (s.raise e).res = some (resError e) := rfl
@[simp] theorem raise_results (s : State) (e : CmdError) : (s.raise e).results = noResults := rfl
@[simp] theorem raise_host (s : State) (e : CmdError) : (s.raise e).host = s.host := rfl

@[simp] theorem resetBlock_cfg (s : State) : s.resetBlock.cfg = cfgReset := rfl
@[simp] theorem resetBlock_ops (s : State) : s.resetBlock.ops = operandsAtRest := rfl
@[simp] theorem resetBlock_res (s : State) : s.resetBlock.res = none := rfl
@[simp] theorem resetBlock_results (s : State) : s.resetBlock.results = noResults := rfl
@[simp] theorem resetBlock_host (s : State) : s.resetBlock.host = s.host := rfl

@[simp] theorem presentWord_cfg (s : State) (w : CmdWord) : (presentWord s w).cfg = s.cfg := rfl
@[simp] theorem presentWord_ops (s : State) (w : CmdWord) : (presentWord s w).ops = s.ops := rfl
@[simp] theorem presentWord_res (s : State) (w : CmdWord) : (presentWord s w).res = s.res := rfl
@[simp] theorem presentWord_results (s : State) (w : CmdWord) : (presentWord s w).results = s.results := rfl
@[simp] theorem presentWord_host (s : State) (w : CmdWord) :
    (presentWord s w).host = .command w s.ops :: s.host := rfl

variable {α : Type}

@[simp] theorem conclude_ok (s : State) (a : α) (f : α → ResultPorts) : s.conclude (.ok a) f = s.ok (f a) := rfl
@[simp] theorem conclude_error (s : State) (e : CmdError) (f : α → ResultPorts) :
    s.conclude (.error e) f = s.raise e := rfl
@[simp] theorem conclude_cfg (s : State) (r : Except CmdError α) (f : α → ResultPorts) :
    (s.conclude r f).cfg = s.cfg := by cases r <;> rfl
@[simp] theorem conclude_ops (s : State) (r : Except CmdError α) (f : α → ResultPorts) :
    (s.conclude r f).ops = operandsAtRest := by cases r <;> rfl
@[simp] theorem conclude_host (s : State) (r : Except CmdError α) (f : α → ResultPorts) :
    (s.conclude r f).host = s.host := by cases r <;> rfl

@[simp] theorem holdsValue_res (s : State) : s.holdsValue .res = s.res.isSome := rfl
@[simp] theorem holdsValue_hdr (s : State) : s.holdsValue .hdr = s.results.hdr.isSome := rfl
@[simp] theorem holdsValue_desc (s : State) : s.holdsValue .desc = s.results.desc.isSome := rfl
@[simp] theorem holdsValue_pad (s : State) : s.holdsValue .pad = s.results.pad.isSome := rfl
@[simp] theorem holdsValue_ndw (s : State) : s.holdsValue .ndw = s.results.ndw.isSome := rfl
@[simp] theorem holdsValue_frame (s : State) : s.holdsValue .frame = s.results.frame.isSome := rfl
@[simp] theorem holdsValue_mh (s : State) : s.holdsValue .mh = s.results.mh.isSome := rfl
@[simp] theorem holdsValue_pl (s : State) : s.holdsValue .pl = s.results.pl.isSome := rfl

@[simp] theorem hdrLen_eq : hdrLen = 12 := rfl
@[simp] theorem lenMax_eq : lenMax = 1023 := rfl
@[simp] theorem padMax_eq : padMax = 3 := rfl
@[simp] theorem combinedMax_eq : combinedMax = 4092 := rfl

end Sys2Proof.Machine
end

