-- ==== Sys2Proof/Laws/Ops.lean ====
section
/-! SUPPORT. What each shared operation can do, said once: the list of checks, a CFG write, a port read, one host
interaction, one step. -/

namespace Sys2Proof.Machine

/-- No check fails exactly when every entry's test is false. -/
theorem firstFailure_eq_none {l : List (Bool × FieldId)} : firstFailure l = none ↔ ∀ x ∈ l, x.1 = false := by
  induction l with
  | nil => simp [firstFailure]
  | cons x rest ih => obtain ⟨failed, f⟩ := x; cases failed <;> simp [firstFailure, ih]

/-- The field reported is that of a failing entry before which no entry fails. -/
theorem firstFailure_eq_some {l : List (Bool × FieldId)} {f : FieldId} :
    firstFailure l = some f ↔ ∃ before after, l = before ++ (true, f) :: after ∧ ∀ x ∈ before, x.1 = false := by
  induction l with
  | nil => simp [firstFailure]
  | cons x rest ih =>
    obtain ⟨failed, g⟩ := x
    cases failed with
    | true =>
      constructor
      · intro h; exact ⟨[], rest, by simpa [firstFailure] using h, by simp⟩
      · rintro ⟨before, after, h, hb⟩
        cases before with
        | nil => simpa [firstFailure] using (List.cons.inj h).1
        | cons y ys => exact absurd (hb y (by simp)) (by rw [← (List.cons.inj h).1]; simp)
    | false =>
      constructor
      · intro h
        obtain ⟨before, after, rfl, hb⟩ := ih.1 (by simpa [firstFailure] using h)
        exact ⟨(false, g) :: before, after, by simp, by simpa using hb⟩
      · rintro ⟨before, after, h, hb⟩
        cases before with
        | nil => exact absurd (List.cons.inj h).1 (by simp)
        | cons y ys =>
          simp only [firstFailure, Bool.false_eq_true, if_false]
          exact ih.2 ⟨ys, after, (List.cons.inj h).2, fun x hx => hb x (by simp [hx])⟩

/-- A chain of tests with their field codes is a list of checks with its field code, entry by entry. -/
theorem firstFailure_code_cons {P : Prop} [Decidable P] {failed : Bool} {f : FieldId} {rest : List (Bool × FieldId)}
    {code : Nat} {others : Option Nat} (hP : P ↔ failed = true) (hcode : (fieldCode f).toNat = code)
    (hrest : others = (firstFailure rest).map fun g => (fieldCode g).toNat) :
    (if P then some code else others) = (firstFailure ((failed, f) :: rest)).map fun g => (fieldCode g).toNat := by
  by_cases hf : failed = true
  · simp [firstFailure, hf, hP, hcode]
  · simp [firstFailure, hf, hP, hrest]

/-- A CFG write that is accepted is one of the map of R21, and writes that register alone. -/
theorem cfgWrite_cases {c c' : Cfg} {number value : Nat} (h : cfgWrite c number value = .ok c') :
    cfgWriteLegal number value = true ∧
      (number = 0 ∧ c' = { c with maxFrame := value } ∨
        number = 1 ∧ c' = { c with routing := BitVec.ofNat 3 value } ∨
        number = 2 ∧ c' = { c with attr := BitVec.ofNat 2 value } ∨
        number = 3 ∧ c' = { c with subcode := BitVec.ofNat 4 value }) := by
  match number with
  | 0 => simp_all [cfgWrite, cfgWriteLegal]
  | 1 => simp only [cfgWrite] at h; split at h <;> simp_all [cfgWriteLegal]
  | 2 => simp only [cfgWrite] at h; split at h <;> simp_all [cfgWriteLegal]
  | 3 => simp only [cfgWrite] at h; split at h <;> simp_all [cfgWriteLegal]
  | n + 4 => simp [cfgWrite] at h

/-- A command takes a next state that keeps CFG and the host's list, releases the operands, and holds either OK with what
it wrote or an error with no result. -/
theorem exec_cases (i : Instr) (s : State) :
    (∃ r, exec i s = .next (s.ok r)) ∨ ∃ e, exec i s = .next (s.raise e) := by
  have conclude_cases : ∀ {α : Type} (r : Except CmdError α) (f : α → ResultPorts),
      (∃ p, (Host.Outcome.next (s.conclude r f) : Host.Outcome State Fault Refusal) = .next (s.ok p)) ∨
        ∃ e, (Host.Outcome.next (s.conclude r f) : Host.Outcome State Fault Refusal) = .next (s.raise e) := by
    intro α r f
    cases r with
    | ok a => exact .inl ⟨f a, rfl⟩
    | error e => exact .inr ⟨e, rfl⟩
  cases i with
  | encodeHdr => exact conclude_cases _ _
  | decodeHdr => exact conclude_cases _ _
  | padCalc => exact .inl ⟨_, rfl⟩
  | assemble => exact conclude_cases _ _
  | disassemble => exact conclude_cases _ _

/-- A presented word either runs its command or is answered with ILLEGAL_COMMAND. -/
theorem runCommand_cases (w : CmdWord) (s : State) :
    (∃ i, decode w = .ok i ∧ runCommand w s = exec i s) ∨
      ∃ r, decode w = .error r ∧ runCommand w s = .next (s.raise (.illegalCommand r)) := by
  cases h : decode w with
  | ok i => exact .inl ⟨i, rfl, by simp [runCommand, h]⟩
  | error r => exact .inr ⟨r, rfl, by simp [runCommand, h]⟩

/-- A port read gives a value when the port holds one, and the port's own fault when it does not. -/
theorem readPort_cases (s : State) (p : ResultPort) :
    (s.holdsValue p = true ∧ ∃ v, s.readPort p = .ok v) ∨ (s.holdsValue p = false ∧ s.readPort p = .error (.noResult p)) := by
  have split : ∀ {α : Type} (o : Option α) (f : α → PortValue),
      (o.isSome = true ∧ ∃ v, (match o.map f with | some v => Except.ok v | none => .error (Fault.noResult p)) = .ok v) ∨
        (o.isSome = false ∧ (match o.map f with | some v => Except.ok v | none => .error (Fault.noResult p)) =
          .error (.noResult p)) := by
    intro α o f
    cases o with
    | none => exact .inr ⟨rfl, rfl⟩
    | some a => exact .inl ⟨rfl, f a, rfl⟩
  cases p <;> exact split _ _

/-- A port that is read holds a value, and the machine's state is the same after. -/
theorem act_readPort_next {p : ResultPort} {s t : State} (h : act (.readPort p) s = .next t) :
    t = s ∧ ∃ v, s.readPort p = .ok v := by
  unfold act at h
  cases hr : s.readPort p with
  | ok v => simp only [hr] at h; exact ⟨by injection h with h; exact h.symm, v, rfl⟩
  | error f => simp [hr] at h

/-- Everything one interaction can do when it answers a next state: reset the block, write a register of CFG, run a
command, or read a port and change nothing. -/
theorem act_cases {a : HostAction} {s t : State} (h : act a s = .next t) :
    (t = s.resetBlock ∧ (a = .reset ∨ ∃ w o, a = .disturbed w o .reset)) ∨
      (∃ number value c, a = .writeCfg number value ∧ cfgWrite s.cfg number value = .ok c ∧ t = { s with cfg := c }) ∨
      (∃ w o, a = .command w o ∧ runCommand w (s.present o) = .next t) ∨
      ∃ p v, a = .readPort p ∧ s.readPort p = .ok v ∧ t = s := by
  cases a with
  | reset => exact .inl ⟨by injection h with h; exact h.symm, .inl rfl⟩
  | writeCfg number value =>
    cases hc : cfgWrite s.cfg number value with
    | ok c =>
      simp only [act, hc] at h
      exact .inr (.inl ⟨number, value, c, rfl, hc, by injection h with h; exact h.symm⟩)
    | error r => simp [act, hc] at h
  | command w o => exact .inr (.inr (.inl ⟨w, o, rfl, h⟩))
  | disturbed w o d =>
    cases d with
    | reset => exact .inl ⟨by injection h with h; exact h.symm, .inr ⟨w, o, rfl⟩⟩
    | cfgWrite => simp [act] at h
    | operandChange => simp [act] at h
  | readPort p =>
    obtain ⟨rfl, v, hv⟩ := act_readPort_next h
    exact .inr (.inr (.inr ⟨p, v, rfl, hv, rfl⟩))

/-- A step waits, or performs the host's next interaction on the state without it. -/
theorem step_cases (s : State) :
    (s.host = [] ∧ step s = .next s) ∨ ∃ a rest, s.host = a :: rest ∧ step s = act a { s with host := rest } := by
  unfold step
  cases h : s.host with
  | nil => exact .inl ⟨rfl, rfl⟩
  | cons a rest => exact .inr ⟨a, rest, rfl, rfl⟩

/-- A run of one more step is that step and the run from there. -/
theorem core_run_succ {s t : State} (k : Nat) (h : step s = .next t) :
    Sys2Proof.core.run (k + 1) s = Sys2Proof.core.run k t := by
  have hc : Sys2Proof.core.step s = .next t := h
  simp only [Host.Core.run, hc]

end Sys2Proof.Machine
end

