-- ==== Sys2Proof/Laws/Codec.lean ====
section
/-! SUPPORT. The header codec, the padding and the frame operations, each said once in numbers. -/

namespace Sys2Proof.Machine

theorem lowByte_toNat (v : Id16) : (lowByte v).toNat = v.toNat % 256 := by
  simp [lowByte]

theorem highByte_toNat (v : Id16) : (highByte v).toNat = v.toNat / 256 := by
  simp [highByte, Nat.shiftRight_eq_div_pow]; omega

theorem or_shift_toNat {hi lo k : Nat} (h : lo < 2 ^ k) : hi <<< k ||| lo = hi * 2 ^ k + lo := by
  rw [Nat.shiftLeft_eq, Nat.mul_comm]; exact (Nat.two_pow_add_eq_or_of_lt h hi).symm

theorem u16le_toNat (lo hi : Byte) : (u16le lo hi).toNat = lo.toNat + 256 * hi.toNat := by
  have h1 := lo.isLt
  have h2 := hi.isLt
  have h3 := or_shift_toNat (hi := hi.toNat) (lo := lo.toNat) (k := 8) h1
  simp [u16le]
  rw [Nat.mod_eq_of_lt (a := lo.toNat) (by omega), Nat.mod_eq_of_lt (a := hi.toNat) (by omega),
    Nat.mod_eq_of_lt (a := hi.toNat <<< 8) (by rw [Nat.shiftLeft_eq]; omega), Nat.lor_comm, h3]
  omega

theorem u16le_low_high (v : Id16) : u16le (lowByte v) (highByte v) = v := by
  apply BitVec.eq_of_toNat_eq
  rw [u16le_toNat, lowByte_toNat, highByte_toNat]; omega

theorem lowByte_u16le (lo hi : Byte) : lowByte (u16le lo hi) = lo := by
  apply BitVec.eq_of_toNat_eq
  have := lo.isLt
  rw [lowByte_toNat, u16le_toNat]; omega

theorem highByte_u16le (lo hi : Byte) : highByte (u16le lo hi) = hi := by
  apply BitVec.eq_of_toNat_eq
  have := lo.isLt
  rw [highByte_toNat, u16le_toNat]; omega

theorem headerLength_eq (h : Header) : headerLength h = declaredLength h := by
  have h1 := h.b2.isLt
  have h2 := h.b3.isLt
  have h3 := or_shift_toNat (hi := h.b2.toNat % 4) (lo := h.b3.toNat) (k := 8) h2
  simp [headerLength, declaredLength]
  rw [Nat.mod_eq_of_lt (a := h.b3.toNat) (by omega), Nat.mod_eq_of_lt (a := h.b2.toNat % 4) (by omega),
    Nat.mod_eq_of_lt (by rw [Nat.shiftLeft_eq]; omega), h3]
  norm_num

theorem headerPad_eq (h : Header) : headerPad h = declaredPad h := by
  simp [headerPad, declaredPad, Nat.shiftRight_eq_div_pow]

theorem declaredLength_le (h : Header) : declaredLength h ≤ 1023 := by
  have := h.b3.isLt
  simp only [declaredLength]; omega

theorem declaredPad_le (h : Header) : declaredPad h ≤ 3 := by
  simp only [declaredPad]; omega

@[simp] theorem headerBytes_length (h : Header) : (headerBytes h).length = 12 := rfl

@[simp] theorem zeros_length (n : Nat) : (zeros n).length = n := by simp [zeros]

/-- What ENCODE_HDR's function answers OK on, and with what. -/
theorem encodeHeader_ok_iff {cfg : Cfg} {d : FrameDescriptor} {h : Header} :
    encodeHeader cfg d = .ok h ↔ LegalDescriptor cfg d ∧ h = packHeader d := by
  have none_iff : firstFailure (encodeChecks cfg d) = none ↔ LegalDescriptor cfg d := by
    rw [firstFailure_eq_none]
    simp [encodeChecks, LegalDescriptor, FixedFields, LengthBounds, fmtTypeValue, tcValue, tdValue, epValue, msgCode,
      vendorIdValue]
    tauto
  unfold encodeHeader
  cases hf : firstFailure (encodeChecks cfg d) with
  | none => simp [none_iff.1 hf, eq_comm]
  | some f =>
    have : ¬ LegalDescriptor cfg d := fun he => by rw [none_iff.2 he] at hf; cases hf
    simp [this]

/-- When ENCODE_HDR's function does not answer OK it names a field. -/
theorem encodeHeader_error {cfg : Cfg} {d : FrameDescriptor} {e : CmdError} (h : encodeHeader cfg d = .error e) :
    ∃ f, firstFailure (encodeChecks cfg d) = some f ∧ e = .encodingError f := by
  unfold encodeHeader at h
  cases hf : firstFailure (encodeChecks cfg d) with
  | none => simp [hf] at h
  | some f => simp [hf] at h; exact ⟨f, rfl, h.symm⟩

/-- A legal header in the codec's own terms. -/
theorem decodeChecks_none_iff {cfg : Cfg} {h : Header} :
    firstFailure (decodeChecks cfg h) = none ↔ LegalHeader cfg h := by
  rw [firstFailure_eq_none]
  have h0 := h.b0.isLt
  have h1 := h.b1.isLt
  have h2 := h.b2.isLt
  have h6 := h.b6.isLt
  have hr := cfg.routing.isLt
  have ha := cfg.attr.isLt
  have hs := cfg.subcode.isLt
  have mask : ∀ b : Byte, b.toNat &&& 143 = 0 ↔ b.toNat / 128 = 0 ∧ b.toNat % 16 = 0 := by decide
  simp [decodeChecks, LegalHeader, fmtTypeValue, tcValue, tdValue, epValue, msgCode, vendorIdValue, lowByte, highByte,
    headerLength_eq, headerPad_eq, mask, ← BitVec.toNat_inj, Nat.shiftRight_eq_div_pow]
  omega

/-- What DECODE_HDR's function answers OK on, and with what. -/
theorem decodeHeader_ok_iff {cfg : Cfg} {h : Header} {d : FrameDescriptor} :
    decodeHeader cfg h = .ok d ↔ LegalHeader cfg h ∧ d = unpackHeader h := by
  unfold decodeHeader
  cases hf : firstFailure (decodeChecks cfg h) with
  | none => simp [decodeChecks_none_iff.1 hf, eq_comm]
  | some f =>
    have : ¬ LegalHeader cfg h := fun he => by rw [decodeChecks_none_iff.2 he] at hf; cases hf
    simp [this]

/-- When DECODE_HDR's function does not answer OK it names a field. -/
theorem decodeHeader_error {cfg : Cfg} {h : Header} {e : CmdError} (he : decodeHeader cfg h = .error e) :
    ∃ f, firstFailure (decodeChecks cfg h) = some f ∧ e = .malformedFrame f := by
  unfold decodeHeader at he
  cases hf : firstFailure (decodeChecks cfg h) with
  | none => simp [hf] at he
  | some f => simp [hf] at he; exact ⟨f, rfl, he.symm⟩

theorem padOf_le (c : Nat) : padOf c ≤ 3 := by simp only [padOf]; omega

theorem dwordsOf_eq (c : Nat) : 4 * dwordsOf c = c + padOf c := by simp only [dwordsOf, padOf]; omega

theorem dwordsOf_gt_lenMax (c : Nat) : dwordsOf c > lenMax ↔ c > combinedMax := by
  simp only [lenMax_eq, combinedMax_eq, dwordsOf, padOf]; omega

/-- ASSEMBLE's descriptor passes every check of ENCODE_HDR once the length fits (R146). -/
theorem assembleDescriptor_legal (cfg : Cfg) {c : Nat} (rid tid : Id16) (h : c ≤ combinedMax) :
    LegalDescriptor cfg (assembleDescriptor cfg c rid tid) := by
  have hp := padOf_le c
  have hd := dwordsOf_eq c
  have hl : dwordsOf c ≤ 1023 := by
    have := (not_congr (dwordsOf_gt_lenMax c)).2 (by omega); simpa using this
  exact ⟨⟨rfl, rfl, rfl, rfl, rfl, rfl, rfl, rfl, rfl⟩, hl, hp, by simp only [assembleDescriptor]; omega⟩

/-- Everything ASSEMBLE's function can answer (R144, R145, R147). -/
theorem assembleFrame_eq (cfg : Cfg) (mh pl : Bytes) (rid tid : Id16) (tag : BitVec 8) :
    assembleFrame cfg mh pl rid tid tag =
      if mh.length + pl.length > combinedMax then .error .payloadTooLarge
      else if 12 + 4 * dwordsOf (mh.length + pl.length) > cfg.maxFrame then .error .frameTooLarge
      else .ok (headerBytes (packHeader (assembleDescriptor cfg (mh.length + pl.length) rid tid)) ++ mh ++ pl ++
        zeros (padOf (mh.length + pl.length))) := by
  unfold assembleFrame
  by_cases hc : mh.length + pl.length > combinedMax
  · simp only [(dwordsOf_gt_lenMax _).2 hc, hc, if_true]
  · have henc := encodeHeader_ok_iff.2 ⟨assembleDescriptor_legal cfg rid tid (Nat.le_of_not_lt hc), rfl⟩
    have hd := dwordsOf_eq (mh.length + pl.length)
    simp only [(not_congr (dwordsOf_gt_lenMax _)).2 hc, hc, if_false, henc]
    simp only [List.length_append, headerBytes_length, zeros_length]
    rw [show 12 + mh.length + pl.length + padOf (mh.length + pl.length) = 12 + 4 * dwordsOf (mh.length + pl.length) by omega]

@[simp] theorem headerOf_memRead (s : Bytes) : headerOf (memRead s 0 12) = headerOf s := by
  simp [headerOf, memRead]

@[simp] theorem headerOf_headerBytes_append (h : Header) (s : Bytes) : headerOf (headerBytes h ++ s) = h := by
  cases h; rfl

/-- The header of a string of at least 12 bytes is that of any longer string that begins with it. -/
theorem headerOf_append {s : Bytes} (t : Bytes) (h : 12 ≤ s.length) : headerOf (s ++ t) = headerOf s := by
  simp only [headerOf, List.getD_eq_getElem?_getD, Header.mk.injEq]
  refine ⟨?_, ?_, ?_, ?_, ?_, ?_, ?_, ?_, ?_, ?_, ?_, ?_⟩ <;> rw [List.getElem?_append_left (by omega)]

/-- DISASSEMBLE's function, with its constants in numbers (R170). -/
theorem disassembleFrame_eq (cfg : Cfg) (buf : Bytes) (hlen : Nat) :
    disassembleFrame cfg buf hlen =
      if buf.length < 12 then .error (.truncatedFrame .shortHeader)
      else match decodeHeader cfg (headerOf buf) with
        | .error e => .error e
        | .ok d =>
          if buf.length < 12 + 4 * d.lengthDwords then .error (.truncatedFrame .shortRegion)
          else if 4 * d.lengthDwords - d.padLen < hlen then .error (.truncatedFrame .shortSpan)
          else .ok (memRead buf 12 hlen, memRead buf (12 + hlen) (4 * d.lengthDwords - d.padLen - hlen), d) := by
  rw [← headerOf_memRead buf]; rfl

/-- Everything DISASSEMBLE's function answers OK on, and with what (R170). -/
theorem disassembleFrame_ok_iff {cfg : Cfg} {buf : Bytes} {hlen : Nat} {r : Bytes × Bytes × FrameDescriptor} :
    disassembleFrame cfg buf hlen = .ok r ↔
      ∃ d, 12 ≤ buf.length ∧ decodeHeader cfg (headerOf buf) = .ok d ∧
        12 + 4 * d.lengthDwords ≤ buf.length ∧ hlen ≤ 4 * d.lengthDwords - d.padLen ∧
        r = (memRead buf 12 hlen, memRead buf (12 + hlen) (4 * d.lengthDwords - d.padLen - hlen), d) := by
  rw [disassembleFrame_eq]
  by_cases h1 : buf.length < 12
  · simp [h1]
  · cases hd : decodeHeader cfg (headerOf buf) with
    | error e => simp [h1]
    | ok d =>
      by_cases h2 : buf.length < 12 + 4 * d.lengthDwords
      · simp [h1, h2]
      · by_cases h3 : 4 * d.lengthDwords - d.padLen < hlen
        · simp [h1, h2, h3]
        · simp only [h1, h2, h3, if_false]
          constructor
          · intro h; injection h with h
            exact ⟨d, by omega, rfl, by omega, by omega, h.symm⟩
          · rintro ⟨d', -, hd', -, -, rfl⟩
            injection hd' with hd'; subst hd'; rfl

end Sys2Proof.Machine
end

