-- ==== Sys2Proof/Laws/PerInstr.lean ====
section
/-! SUPPORT. One family of facts about every command as syntax: its word has no reserved bit set (R74), and the command is
well formed as it stands (R90). -/

namespace Sys2Proof.Laws.ReservedBitsClear

/-- The word of the command has OP in bits [2:0] and 0 in bits [31:3], and the command is well formed. -/
def Statement (i : Instr) : Prop := (encode i).extractLsb 2 0 = opNumber i ∧ (encode i).extractLsb 31 3 = 0 ∧ i.wf = true

theorem encodeHdr : Statement .encodeHdr := ⟨by decide, by decide, rfl⟩
theorem decodeHdr : Statement .decodeHdr := ⟨by decide, by decide, rfl⟩
theorem padCalc : Statement .padCalc := ⟨by decide, by decide, rfl⟩
theorem assemble : Statement .assemble := ⟨by decide, by decide, rfl⟩
theorem disassemble : Statement .disassemble := ⟨by decide, by decide, rfl⟩

end Sys2Proof.Laws.ReservedBitsClear
end

