-- ==== Sys2Proof/Tests/Slice0.lean ====
section
/-! SUPPORT. The model's own tests. Expected values are those of spec/95_test_vectors.md (the vector's name stands in the
comment) or of the rule cited. -/

namespace Sys2Proof.Tests

open Sys2Proof.Machine

/-! The well-formedness smoke: one ill-formed term for each check, which the check refuses. -/

/-- A descriptor literal with the four required fields. -/
def descLit : DescExpr :=
  { lengthDwords := some 2, padLen := some 3, requesterId := some 0x1234, targetId := some 0x5678 }

theorem test_wf_desc : descLit.wf = true := by decide
theorem test_wf_desc_no_length : DescExpr.wf { descLit with lengthDwords := none } = false := by decide
theorem test_wf_desc_no_pad : DescExpr.wf { descLit with padLen := none } = false := by decide
theorem test_wf_desc_no_requester : DescExpr.wf { descLit with requesterId := none } = false := by decide
theorem test_wf_desc_no_target : DescExpr.wf { descLit with targetId := none } = false := by decide
theorem test_wf_desc_fmt_wide : DescExpr.wf { descLit with fmtType := some 32 } = false := by decide
theorem test_wf_desc_routing_wide : DescExpr.wf { descLit with routing := some 8 } = false := by decide
theorem test_wf_desc_tc_wide : DescExpr.wf { descLit with tc := some 8 } = false := by decide
theorem test_wf_desc_td_wide : DescExpr.wf { descLit with td := some 2 } = false := by decide
theorem test_wf_desc_ep_wide : DescExpr.wf { descLit with ep := some 2 } = false := by decide
theorem test_wf_desc_attr_wide : DescExpr.wf { descLit with attr := some 4 } = false := by decide
theorem test_wf_desc_requester_wide : DescExpr.wf { descLit with requesterId := some 65536 } = false := by decide
theorem test_wf_desc_subcode_wide : DescExpr.wf { descLit with subcode := some 16 } = false := by decide
theorem test_wf_desc_msg_wide : DescExpr.wf { descLit with messageCode := some 256 } = false := by decide
theorem test_wf_desc_target_wide : DescExpr.wf { descLit with targetId := some 65536 } = false := by decide
theorem test_wf_desc_vendor_wide : DescExpr.wf { descLit with vendorId := some 65536 } = false := by decide
theorem test_wf_decode_eleven_bytes : Line.wf { op := .decodeHdr, operands := [.bytes (.zeros 11)] } = false := by decide
theorem test_wf_padcalc_two_operands : Line.wf { op := .padCalc, operands := [.num 1, .num 2] } = false := by decide
theorem test_wf_assemble_rid_wide :
    Line.wf { op := .assemble, operands := [.bytes (.lit []), .bytes (.lit []), .num 65536, .num 0, .num 0] } = false := by
  decide
theorem test_wf_assemble_tid_wide :
    Line.wf { op := .assemble, operands := [.bytes (.lit []), .bytes (.lit []), .num 0, .num 65536, .num 0] } = false := by
  decide
theorem test_wf_assemble_tag_wide :
    Line.wf { op := .assemble, operands := [.bytes (.lit []), .bytes (.lit []), .num 0, .num 0, .num 256] } = false := by
  decide
theorem test_wf_disassemble_no_hlen : Line.wf { op := .disassemble, operands := [.bytes (.lit [])] } = false := by decide
theorem test_wf_cfg_no_register : cfgWriteLegal 4 0 = false := by decide
theorem test_wf_cfg_routing_wide : cfgWriteLegal 1 8 = false := by decide
theorem test_wf_cfg_attr_wide : cfgWriteLegal 2 4 = false := by decide
theorem test_wf_cfg_subcode_wide : cfgWriteLegal 3 16 = false := by decide

/-! The command words, bit by bit (R74, R75, R76). -/

theorem test_decode_encode_hdr : decode 0b00000000000000000000000000000000#32 = .ok .encodeHdr := by decide
theorem test_decode_decode_hdr : decode 0b00000000000000000000000000000001#32 = .ok .decodeHdr := by decide
theorem test_decode_pad_calc : decode 0b00000000000000000000000000000010#32 = .ok .padCalc := by decide
theorem test_decode_assemble : decode 0b00000000000000000000000000000011#32 = .ok .assemble := by decide
theorem test_decode_disassemble : decode 0b00000000000000000000000000000100#32 = .ok .disassemble := by decide
theorem test_decode_reserved_op : decode 0x00000005 = .error .reservedOp := by decide          -- K6
theorem test_decode_reserved_bits : decode 0x80000003 = .error .reservedBits := by decide      -- K11
theorem test_decode_op_before_bits : decode 0x0000000D = .error .reservedOp := by decide       -- K10
theorem test_decode_table_word : decodeTableWord 32 3 = some .assemble := by decide

/-! Two vectors for each command. -/

/-- What the host sees of an outcome: the result word and the result ports. -/
def shown : Host.Outcome State Fault Refusal → Option (Option ResWord × ResultPorts)
  | .next t => some (t.res, t.results)
  | .fault _ => none
  | .refused _ => none

/-- The reset state with these operands on the ports. -/
def stateWith (o : OperandPorts) : State := { State.reset with ops := o }

/-- The CFG of vectors E21 and A22. -/
def otherCfg : Cfg := { maxFrame := 1024, routing := 0b010, attr := 0b00, subcode := 0x5 }

/-- A descriptor with the fixed fields of the reset CFG (R91). -/
def desc (len pad : Nat) (rid tid : Id16) : FrameDescriptor :=
  { fmtType := 0b01110, routing := 0, tc := 0, td := 0, ep := 0, attr := 1, lengthDwords := len, requesterId := rid,
    padLen := pad, subcode := 0, messageCode := 0x7F, targetId := tid, vendorId := 0xB41A }

/-- Header H0 of the vectors. -/
def h0 : Header := ⟨0x70, 0x00, 0x10, 0x02, 0x34, 0x12, 0x30, 0x7F, 0x78, 0x56, 0x1A, 0xB4⟩

/-- Frame F1 of the vectors. -/
def f1 : Bytes :=
  [0x70, 0x00, 0x10, 0x02, 0x34, 0x12, 0x30, 0x7F, 0x78, 0x56, 0x1A, 0xB4, 0x01, 0x00, 0xAA, 0xBB, 0xCC, 0x00, 0x00, 0x00]

/-- The operands of vector A1. -/
def a1 : OperandPorts := { operandsAtRest with mh := [0x01, 0x00], pl := [0xAA, 0xBB, 0xCC], rid := 0x1234, tid := 0x5678 }

theorem test_encode_256_dwords :  -- E4
    shown (exec .encodeHdr (stateWith { operandsAtRest with desc := desc 256 1 0x0001 0x0002 })) =
      some (some 0, { noResults with
        hdr := some ⟨0x70, 0x00, 0x11, 0x00, 0x01, 0x00, 0x10, 0x7F, 0x02, 0x00, 0x1A, 0xB4⟩ }) := by decide
theorem test_encode_length_before_pad :  -- E9
    shown (exec .encodeHdr (stateWith { operandsAtRest with desc := desc 2000 7 0 0 })) =
      some (some 0x00000901, noResults) := by decide
theorem test_decode_564_dwords :  -- D31
    shown (exec .decodeHdr (stateWith { operandsAtRest with hdr := { h0 with b2 := 0x12, b3 := 0x34 } })) =
      some (some 0, { noResults with desc := some (desc 564 3 0x1234 0x5678) }) := by decide
theorem test_decode_tc_before_reserved :  -- D7
    shown (exec .decodeHdr (stateWith { operandsAtRest with hdr := { h0 with b1 := 0x14 } })) =
      some (some 0x00000304, noResults) := by decide
theorem test_pad_calc_five :  -- P6
    shown (exec .padCalc (stateWith { operandsAtRest with combined := 5 })) =
      some (some 0, { noResults with pad := some 3, ndw := some 2 }) := by decide
theorem test_pad_calc_past_the_limit :  -- P19
    shown (exec .padCalc (stateWith { operandsAtRest with combined := 4093 })) =
      some (some 0, { noResults with pad := some 3, ndw := some 1024 }) := by decide
theorem test_assemble_other_cfg :  -- A22
    shown (exec .assemble { stateWith a1 with cfg := otherCfg }) =
      some (some 0, { noResults with
        frame := some [0x72, 0x00, 0x00, 0x02, 0x34, 0x12, 0x35, 0x7F, 0x78, 0x56, 0x1A, 0xB4,
          0x01, 0x00, 0xAA, 0xBB, 0xCC, 0x00, 0x00, 0x00] }) := by decide
theorem test_assemble_max_frame_19 :  -- A20
    shown (exec .assemble { stateWith a1 with cfg := { cfgReset with maxFrame := 19 } }) =
      some (some 0x00000003, noResults) := by decide
theorem test_disassemble_padding_and_split :  -- X2 with X10 and X11: other padding, bytes after the region
    shown (exec .disassemble (stateWith
        { operandsAtRest with buf := f1.take 17 ++ [0xDE, 0xAD, 0xBE, 0x01, 0x02], hlen := 4 })) =
      some (some 0, { noResults with mh := some [0x01, 0x00, 0xAA, 0xBB], pl := some [0xCC],
                                     desc := some (desc 2 3 0x1234 0x5678) }) := by decide
theorem test_disassemble_malformed_before_short :  -- X13
    shown (exec .disassemble (stateWith { operandsAtRest with buf := f1.take 11 ++ [0xB5], hlen := 2 })) =
      some (some 0x00000E04, noResults) := by decide

/-! Steps, the host, the notation. -/

theorem test_step_after_reset :  -- P1 of PAD_CALC: the operands at rest are those of a combined length of 0
    shown (step (State.reset.withFetchWord 32 2)) = some (some 0, { noResults with pad := some 0, ndw := some 0 }) := by
  decide
theorem test_step_illegal_word :  -- K9
    shown (step { State.reset with host := [.command 0x00000008 a1] }) = some (some 0x00000206, noResults) := by decide
theorem test_step_refuses_disturbance : shown (step { State.reset with host := [.disturbed 2 a1 .cfgWrite] }) = none := by
  decide
theorem test_read_before_any_command :  -- 93 Part 1 row 14
    State.reset.readPort .frame = .error (.noResult .frame) := by decide
theorem test_transmit_writes_frame :  -- Program 5, step 1
    (match transmit ⟨0x1234⟩ [0x01, 0x00] [0xAA, 0xBB, 0xCC] 0x5678 0x00 State.reset with
      | .next r => r.2
      | _ => none) = some f1 := by decide
theorem test_receive_drops_bad_vendor :  -- Program 3, step 1
    (match receive (f1.set 11 0xB5) 2 State.reset with
      | .next r => some r.2
      | _ => none) = some none := by decide
theorem test_parse_assemble :  -- W2's command line
    ((parseLine "step2: ASSEMBLE [01 00], [AA BB CC], 0x1234, 0x5678, 0x00 ; c = 5".toList).bind (lineCommand cfgReset)) =
      some (.command 0x00000003 a1) := by decide
theorem test_parse_zeros_append :
    ((parseLine "DISASSEMBLE [70 0a] ++ zeros(2), 0b11".toList).bind (lineCommand cfgReset)) =
      some (.command 0x00000004 { operandsAtRest with buf := [0x70, 0x0A, 0x00, 0x00], hlen := 3 }) := by decide
theorem test_parse_descriptor :
    ((parseLine ("ENCODE_HDR ".toList ++ [openBrace] ++ "length_dwords=2, pad_len=3, requester_id=0x1234, target_id=0x5678".toList
        ++ [closeBrace])).bind (lineCommand cfgReset)) =
      some (.command 0x00000000 { operandsAtRest with desc := desc 2 3 0x1234 0x5678 }) := by decide
theorem test_parse_refuses_missing_operand : parseLine "DISASSEMBLE [01 02]".toList = none := by decide

/-! Witnesses: for each statement with hypotheses, a state and operands that meet them all; a value at the boundary of each
clause where there are several. -/

/-- The reset state with one command to come. -/
def issuing (w : CmdWord) (o : OperandPorts) : State := { State.reset with host := [.command w o] }

/-- ASSEMBLE's operands for a combined length `c`, all zeros. -/
def zerosOf (c : Nat) : OperandPorts := { operandsAtRest with pl := zeros c }

theorem witness_reset_action :
    ({ State.reset with host := [.reset] } : State).host = [.reset] ∧
      ({ State.reset with host := [.disturbed 3 a1 .reset] } : State).host = [.disturbed 3 a1 .reset] := ⟨rfl, rfl⟩
theorem witness_every_step_keeps_inv : ResultsInv State.reset ∧ step State.reset = .next State.reset :=
  ⟨by constructor <;> simp [State.reset, noResults], rfl⟩
theorem witness_decode_of_encode : Instr.wf .disassemble = true := rfl
theorem witness_words_at_the_boundaries :
    ((5 : CmdWord).toNat % 8 = 5) ∧ ((7 : CmdWord).toNat % 8 = 7) ∧ ((8 : CmdWord).toNat % 8 = 0) ∧ ((12 : CmdWord).toNat % 8 = 4) ∧
      ((4 : CmdWord).toNat = 4) ∧ decode 7 = .error .reservedOp ∧ decode 12 = .error .reservedBits ∧
      decode 4 = .ok .disassemble := by decide
theorem witness_illegal_word : (issuing 5 a1).host = [.command 5 a1] ∧ 5 ≤ (5 : CmdWord).toNat := ⟨rfl, by decide⟩
theorem witness_step_runs_command :
    (issuing 4 a1).host = [.command 4 a1] ∧ decode 4 = .ok .disassemble ∧ Instr.wf .disassemble = true ∧
      decodeTableWord 32 4 = some .disassemble := ⟨rfl, by decide, rfl, by decide⟩
theorem witness_waits : State.reset.host = [] := rfl
theorem witness_encodable :  -- the greatest length, and a padding of 3
    LegalDescriptor cfgReset (desc 1023 3 0x1234 0x5678) ∧ LegalDescriptor cfgReset (desc 0 0 0 0) := by
  unfold LegalDescriptor FixedFields LengthBounds; decide
theorem witness_legal_header :
    LegalHeader cfgReset h0 ∧ LegalHeader cfgReset { h0 with b2 := 0x13, b3 := 0xFF, b6 := 0 } := by
  unfold LegalHeader declaredPad declaredLength; decide
theorem witness_encode_next :
    (match exec .encodeHdr (stateWith { operandsAtRest with desc := desc 2 3 0x1234 0x5678 }) with
      | .next t => t.results.hdr | _ => none) = some h0 ∧
    (stateWith { operandsAtRest with hdr := h0 }).ops.hdr = h0 := by decide
theorem witness_decode_next :
    (match exec .decodeHdr (stateWith { operandsAtRest with hdr := h0 }) with
      | .next t => t.results.desc | _ => none) = some (desc 2 3 0x1234 0x5678) ∧
    (stateWith { operandsAtRest with desc := desc 2 3 0x1234 0x5678 }).ops.desc = desc 2 3 0x1234 0x5678 := by decide
theorem witness_codec_res_ok :
    (match exec .encodeHdr (stateWith { operandsAtRest with desc := desc 2 3 0x1234 0x5678 }) with
      | .next t => t.res | _ => none) = some resOk ∧
    (match exec .decodeHdr (stateWith { operandsAtRest with hdr := h0 }) with
      | .next t => t.res | _ => none) = some resOk := by decide
theorem witness_codec_pure :
    State.reset.cfg = (stateWith a1).cfg ∧ State.reset.ops.desc = (stateWith a1).ops.desc ∧
      State.reset.ops.hdr = (stateWith a1).ops.hdr := ⟨rfl, rfl, rfl⟩
theorem witness_assemble_within_limits :  -- 1012 is the last that fits the default MAX_FRAME (R150)
    combinedLength (stateWith (zerosOf 1012)) = 1012 ∧
      12 + 4 * ((combinedLength (stateWith (zerosOf 1012)) + 3) / 4) ≤ (stateWith (zerosOf 1012)).cfg.maxFrame := by
  simp [combinedLength, stateWith, zerosOf, operandsAtRest, State.reset, cfgReset]
theorem witness_assemble_payload_too_large :
    combinedLength (stateWith (zerosOf 4093)) > 4092 ∧ combinedLength (stateWith (zerosOf 4092)) = 4092 := by
  simp [combinedLength, stateWith, zerosOf, operandsAtRest]
theorem witness_assemble_frame_too_large :
    combinedLength (stateWith (zerosOf 1013)) ≤ 4092 ∧
      (stateWith (zerosOf 1013)).cfg.maxFrame < 12 + 4 * ((combinedLength (stateWith (zerosOf 1013)) + 3) / 4) := by
  simp [combinedLength, stateWith, zerosOf, operandsAtRest, State.reset, cfgReset]
theorem witness_assemble_outcomes :
    (match exec .assemble { stateWith (zerosOf 1) with cfg := { cfgReset with maxFrame := 15 } } with
      | .next t => t.res | _ => none) = some (resOf 3 0) ∧
    (match exec .assemble (stateWith (zerosOf 1)) with | .next t => t.res | _ => none) = some (resOf 0 0) ∧
    (stateWith (zerosOf 1)).cfg.maxFrame = 1024 := by decide
theorem witness_assemble_payload_outcome :
    (match exec .assemble (stateWith (zerosOf 4093)) with | .next t => t.res | _ => none) =
      some (resError .payloadTooLarge) := by
  simp [exec, execAssemble, assembleFrame_eq, stateWith, zerosOf, operandsAtRest]
theorem witness_assemble_frame :
    (match exec .assemble (stateWith a1) with | .next t => t.results.frame | _ => none) = some f1 := by decide
theorem witness_disassemble_legal :  -- HLEN at its greatest
    LegalHeader cfgReset (headerOf f1) ∧ 12 + 4 * declaredLength (headerOf f1) ≤ f1.length ∧ 5 ≤ spanLength f1 := by
  unfold LegalHeader declaredPad declaredLength spanLength; decide
theorem witness_disassemble_malformed :
    12 ≤ (f1.set 11 0xB5).length ∧
    (match exec .decodeHdr (stateWith { operandsAtRest with hdr := headerOf (f1.set 11 0xB5) }) with
      | .next v => v.res | _ => none) = some (resError (.malformedFrame .vendorId)) := by decide
theorem witness_disassemble_ok :
    (match exec .disassemble (stateWith { operandsAtRest with buf := f1, hlen := 2 }) with
      | .next t => (t.results.mh, t.results.pl, t.results.desc) | _ => (none, none, none)) =
      (some [0x01, 0x00], some [0xAA, 0xBB, 0xCC], some (desc 2 3 0x1234 0x5678)) := by decide
theorem witness_padding_content :
    (f1.take 17).length = 12 + spanLength (f1.take 17) ∧ 12 ≤ (f1.take 17).length ∧
      ([0xDE, 0xAD, 0xBE] : Bytes).length = declaredPad (headerOf (f1.take 17)) ∧
      ([0, 0, 0] : Bytes).length = ([0xDE, 0xAD, 0xBE] : Bytes).length := by decide
theorem witness_bytes_after_region : 12 ≤ f1.length ∧ 12 + 4 * declaredLength (headerOf f1) ≤ f1.length := by decide
theorem witness_other_hlen :  -- HLEN at the span's end, and one past it
    (5 : Nat) ≤ combinedLength (stateWith a1) ∧ combinedLength (stateWith a1) < 6 := by decide
theorem witness_error_outcome :
    (match runCommand 5 State.reset with | .next t => t.res | _ => none) = some (resOf 6 1) ∧
      (resOf 6 1 : ResWord) ≠ resOf 0 0 := by decide
theorem witness_only_cfg_lasts :
    (issuing 3 a1).cfg = ({ issuing 3 a1 with ops := a1, res := some 5 } : State).cfg ∧
      ({ issuing 3 a1 with ops := a1, res := some 5 } : State).host = (issuing 3 a1).host ∧
      (issuing 3 a1).host = [.command 3 a1] := ⟨rfl, rfl, rfl⟩
theorem witness_repeated_command :
    ({ State.reset with host := [.command 3 a1, .command 3 a1] } : State).host = [.command 3 a1, .command 3 a1] := rfl
theorem witness_cfg_writes :  -- each register's greatest legal value, and the first that is not
    (match step { State.reset with host := [.writeCfg 1 7] } with | .next t => some t.cfg | _ => none) =
      some { cfgReset with routing := 7 } ∧
    (match step { State.reset with host := [.writeCfg 2 3] } with | .next t => some t.cfg | _ => none) =
      some { cfgReset with attr := 3 } ∧
    (match step { State.reset with host := [.writeCfg 3 15] } with | .next t => some t.cfg | _ => none) =
      some { cfgReset with subcode := 15 } ∧
    (match step { State.reset with host := [.writeCfg 0 4104] } with | .next t => some t.cfg | _ => none) =
      some { cfgReset with maxFrame := 4104 } ∧
    (match step { State.reset with host := [.writeCfg 1 8] } with | .refused r => some r | _ => none) =
      some (.illegalCfgValue 1 8) ∧
    (match step { State.reset with host := [.writeCfg 2 4] } with | .refused r => some r | _ => none) =
      some (.illegalCfgValue 2 4) ∧
    (match step { State.reset with host := [.writeCfg 3 16] } with | .refused r => some r | _ => none) =
      some (.illegalCfgValue 3 16) ∧
    (match step { State.reset with host := [.writeCfg 4 0] } with | .refused r => some r | _ => none) =
      some (.noSuchCfgRegister 4) := by decide
theorem witness_cfg_changed :
    (match step { State.reset with host := [.writeCfg 0 12] } with | .next t => some t.cfg | _ => none) ≠
      some State.reset.cfg := by decide
theorem witness_disturbed :
    ({ State.reset with host := [.disturbed 3 a1 .operandChange] } : State).host = [.disturbed 3 a1 .operandChange] := rfl
theorem witness_read_ports :  -- a port with no value, and one with a value
    ({ State.reset with host := [.readPort .pad] } : State).host = [.readPort .pad] ∧ State.reset.holdsValue .pad = false ∧
      ({ State.reset with res := some 5 } : State).holdsValue .res = true := ⟨rfl, rfl, rfl⟩
theorem witness_read_after_ok :  -- FRAME after PAD_CALC, and NDW
    (match exec .padCalc (stateWith a1) with
      | .next t => some (t.res, t.holdsValue .frame, t.holdsValue .ndw) | _ => none) = some (some (resOf 0 0), false, true) := by
  decide
theorem witness_dutiful :
    ∀ a ∈ [HostAction.reset, .writeCfg 3 15, .command 0xFFFFFFFF a1, .disturbed 3 a1 .reset], a.dutiful = true := by decide
theorem witness_transmit :
    ([0x01, 0x00] : Bytes).length + ([0xAA, 0xBB, 0xCC] : Bytes).length ≤ 4092 ∧
      12 + 4 * ((([0x01, 0x00] : Bytes).length + ([0xAA, 0xBB, 0xCC] : Bytes).length + 3) / 4) ≤ State.reset.cfg.maxFrame ∧
      State.reset.cfg.maxFrame < 12 + 4 * ((1013 + 3) / 4) := by decide
theorem witness_transmit_outcomes :
    (4092 < (zeros 4093).length + ([] : Bytes).length) ∧
      State.reset.cfg.maxFrame < 12 + 4 * (((zeros 1013).length + ([] : Bytes).length + 3) / 4) := by
  simp [State.reset, cfgReset]
theorem witness_receive_hands_on :  -- HLEN at its greatest, padding that is not zero
    LegalHeader cfgReset (headerOf (f1.take 17 ++ [0xDE, 0xAD, 0xBE])) ∧
      12 + 4 * declaredLength (headerOf (f1.take 17 ++ [0xDE, 0xAD, 0xBE])) ≤ (f1.take 17 ++ [0xDE, 0xAD, 0xBE]).length ∧
      5 ≤ spanLength (f1.take 17 ++ [0xDE, 0xAD, 0xBE]) := by
  unfold LegalHeader declaredPad declaredLength spanLength; decide
theorem witness_receive_drops :  -- SHORT_HEADER, malformed, SHORT_REGION, SHORT_SPAN, each one past its boundary
    (f1.take 11).length < 12 ∧ ¬ LegalHeader cfgReset (headerOf (f1.set 11 0xB5)) ∧
      (f1.take 19).length < 12 + 4 * declaredLength (headerOf (f1.take 19)) ∧ spanLength f1 < 6 := by
  unfold LegalHeader declaredPad declaredLength spanLength; decide
theorem witness_descriptor_literal : 1023 ≤ 1023 ∧ 3 ≤ 3 ∧ 3 ≤ 4 * 1023 ∧ 65535 < 2 ^ 16 := by decide

end Sys2Proof.Tests
end

section
/-! PROOF. What a presented command starts from, and that CFG is all that lasts between commands (R20). -/

namespace Sys2Proof.Machine

/-- A command at the head of the host's list runs on its own operands, with the rest of the list to come (R25, R74). -/
theorem step_command {s : State} {w : CmdWord} {o : OperandPorts} {rest : List HostAction}
    (hhost : s.host = .command w o :: rest) : step s = runCommand w ({ s with host := rest }.present o) := by
  simp only [step, hhost, act]

/-- Presenting operands forgets what the ports held: of the state before, only CFG and the host's list are left
(R20, R28). -/
theorem present_congr {s s' : State} (o : OperandPorts) (hcfg : s.cfg = s'.cfg) (hhost : s.host = s'.host) :
    s.present o = s'.present o := by
  simp only [State.present, hcfg, hhost]

/-- Settles O40: both steps run the same command, and presenting its operands makes the two states one. -/
theorem onlyCfgLastsBetweenCommands : Obligations.OnlyCfgLastsBetweenCommands := by
  intro s s' w o rest hcfg hhost hsame
  have hhost' : s'.host = .command w o :: rest := hsame.trans hhost
  have hpresent : { s with host := rest }.present o = { s' with host := rest }.present o := present_congr o hcfg rfl
  rw [step_command hhost, step_command hhost', hpresent]

end Sys2Proof.Machine
end

section
/-! PROOF. Byte order (20_memory.md): the ids of a header low byte first and free (R43, R65, R68, R69), and an assembled frame in
wire order with zero padding (R42, R148). -/

namespace Sys2Proof.Machine

/-! How a command that concludes is told OK from an error. -/

/-- STATUS stands in the low four bits of a result word (R78). -/
theorem resStatus_resultWord (status : BitVec 4) (info : BitVec 8) : resStatus (resultWord status info) = status :=
  BitVec.extractLsb'_append_eq_right

/-- No error has the STATUS of OK (R79). -/
theorem errorStatus_ne_statusOk (e : CmdError) : errorStatus e ≠ statusOk := by
  cases e <;> simp [errorStatus, statusOk]

/-- No error's result word is that of OK: their STATUS differs. -/
theorem resError_ne_resOk (e : CmdError) : resError e ≠ resOk := by
  intro h
  have hstatus : errorStatus e = statusOk := by
    simpa only [resError, resOk, resStatus_resultWord] using congrArg resStatus h
  exact errorStatus_ne_statusOk e hstatus

section
variable {α β : Type} {s : State} {r : Except CmdError α} {write : α → ResultPorts}

/-- RES reads OK exactly when the operation's function answers a value. -/
theorem conclude_res_ok_iff : (s.conclude r write).res = some resOk ↔ ∃ a, r = .ok a := by
  cases r with
  | ok a => simp
  | error e => simp [resError_ne_resOk]

/-- A result port holds a value after a command only when the function answered and its answer was written there (R205). -/
theorem conclude_port_eq_some_iff {port : ResultPorts → Option β} {b : β} (hempty : port noResults = none) :
    port (s.conclude r write).results = some b ↔ ∃ a, r = .ok a ∧ port (write a) = some b := by
  cases r with
  | ok a => simp
  | error e => simp [hempty]

end

/-! What the header codec's and ASSEMBLE's results are. -/

/-- HDR after ENCODE_HDR is the packed operand, and the operand was legal (R100). -/
theorem encodeHdr_hdr_eq_some {s t : State} {h : Header} (hx : exec .encodeHdr s = .next t)
    (hh : t.results.hdr = some h) : LegalDescriptor s.cfg s.ops.desc ∧ h = packHeader s.ops.desc := by
  cases hx
  obtain ⟨h', henc, hport⟩ := (conclude_port_eq_some_iff (port := ResultPorts.hdr) rfl).1 hh
  cases hport
  exact encodeHeader_ok_iff.1 henc

/-- ENCODE_HDR is OK exactly on a legal descriptor (R100). -/
theorem encodeHdr_ok_iff {s : State} :
    (∃ t, exec .encodeHdr s = .next t ∧ t.res = some resOk) ↔ LegalDescriptor s.cfg s.ops.desc := by
  simp [exec, execEncodeHdr, conclude_res_ok_iff, encodeHeader_ok_iff]

/-- DESC after DECODE_HDR is the unpacked operand, and the operand was legal (R103). -/
theorem decodeHdr_desc_eq_some {s t : State} {d : FrameDescriptor} (hx : exec .decodeHdr s = .next t)
    (hd : t.results.desc = some d) : LegalHeader s.cfg s.ops.hdr ∧ d = unpackHeader s.ops.hdr := by
  cases hx
  obtain ⟨d', hdec, hport⟩ := (conclude_port_eq_some_iff (port := ResultPorts.desc) rfl).1 hd
  cases hport
  exact decodeHeader_ok_iff.1 hdec

/-- DECODE_HDR is OK exactly on a legal header (R103). -/
theorem decodeHdr_ok_iff {s : State} :
    (∃ t, exec .decodeHdr s = .next t ∧ t.res = some resOk) ↔ LegalHeader s.cfg s.ops.hdr := by
  simp [exec, execDecodeHdr, conclude_res_ok_iff, decodeHeader_ok_iff]

/-- The header ASSEMBLE puts before its operands (R144). -/
def assembledHeader (s : State) : Header :=
  packHeader (assembleDescriptor s.cfg (combinedLength s) s.ops.rid s.ops.tid)

/-- FRAME after ASSEMBLE, in its four parts; it was within both limits (R144, R145, R147). -/
theorem assemble_frame_eq_some {s t : State} {f : Bytes} (hx : exec .assemble s = .next t)
    (hf : t.results.frame = some f) :
    combinedLength s ≤ combinedMax ∧ 12 + 4 * dwordsOf (combinedLength s) ≤ s.cfg.maxFrame ∧
      f = headerBytes (assembledHeader s) ++ s.ops.mh ++ s.ops.pl ++ zeros (padOf (combinedLength s)) := by
  cases hx
  obtain ⟨f', hasm, hport⟩ := (conclude_port_eq_some_iff (port := ResultPorts.frame) rfl).1 hf
  cases hport
  rw [assembleFrame_eq] at hasm
  split at hasm
  · cases hasm
  next hlength =>
    split at hasm
    · cases hasm
    next hframe =>
      cases hasm
      exact ⟨Nat.le_of_not_lt hlength, Nat.le_of_not_lt hframe, rfl⟩

/-! What a packed header holds, in numbers. -/

/-- A byte made of a high part shifted above a low part is their sum. -/
theorem byte_shift_or_toNat {hi lo : Byte} {k : Nat} (hlo : lo.toNat < 2 ^ k) (hhi : hi.toNat * 2 ^ k < 256) :
    (hi <<< k ||| lo).toNat = hi.toNat * 2 ^ k + lo.toNat := by
  rw [BitVec.toNat_or, BitVec.toNat_shiftLeft, Nat.mod_eq_of_lt (by rwa [Nat.shiftLeft_eq]), or_shift_toNat hlo]

/-- The two bytes of a length: its two high bits and its low eight (R71). -/
theorem length_bytes_toNat {len : Nat} (hlen : len ≤ 1023) :
    (((BitVec.ofNat 10 len).extractLsb 9 8).setWidth 8 : Byte).toNat = len / 256 ∧
      ((BitVec.ofNat 10 len).extractLsb 7 0 : Byte).toNat = len % 256 := by
  constructor
  · simp [Nat.shiftRight_eq_div_pow]; omega
  · simp

/-- The twelve bytes of a packed legal descriptor are those of R60's table. -/
theorem packHeader_carries {cfg : Cfg} {d : FrameDescriptor} (hd : LegalDescriptor cfg d) :
    HeaderCarries cfg (packHeader d) d.lengthDwords d.padLen d.requesterId d.targetId := by
  obtain ⟨⟨hfmt, hrouting, htc, htd, hep, hattr, hsubcode, hmsg, hvendor⟩, hlen, hpad, -⟩ := hd
  obtain ⟨hhigh, hlow⟩ := length_bytes_toNat hlen
  have hb0 : (packHeader d).b0.toNat = 0x70 + cfg.routing.toNat := by
    have := cfg.routing.isLt
    simp only [packHeader, hfmt, hrouting]
    rw [byte_shift_or_toNat] <;> simp <;> omega
  have hb2 : (packHeader d).b2.toNat = 16 * cfg.attr.toNat + d.lengthDwords / 256 := by
    have := cfg.attr.isLt
    simp only [packHeader, htd, hep, hattr]
    have hclear : ∀ x : Byte, (0 : BitVec 1).setWidth 8 <<< 7 ||| (0 : BitVec 1).setWidth 8 <<< 6 ||| x = x := by simp
    rw [hclear, byte_shift_or_toNat, hhigh] <;> simp <;> omega
  have hb6 : (packHeader d).b6.toNat = 16 * d.padLen + cfg.subcode.toNat := by
    have := cfg.subcode.isLt
    simp only [packHeader, hsubcode]
    rw [byte_shift_or_toNat] <;> simp <;> omega
  exact ⟨hb0, by simp [packHeader, htc], hb2, hlow, lowByte_toNat _, highByte_toNat _, hb6, by simp [packHeader, hmsg],
    lowByte_toNat _, highByte_toNat _, by simp [packHeader, hvendor, lowByte], by simp [packHeader, hvendor, highByte]⟩

/-- A header that carries a padding of at most three bytes declares it (R66). -/
theorem declaredPad_of_carries {cfg : Cfg} {h : Header} {len pad : Nat} {rid tid : Id16}
    (hc : HeaderCarries cfg h len pad rid tid) (hpad : pad ≤ 3) : declaredPad h = pad := by
  obtain ⟨-, -, -, -, -, -, hb6, -⟩ := hc
  have := cfg.subcode.isLt
  rw [declaredPad, hb6]
  omega

/-- The header before an assembled frame declares the frame's padding. -/
theorem declaredPad_assembledHeader {s : State} (hlength : combinedLength s ≤ combinedMax) :
    declaredPad (assembledHeader s) = padOf (combinedLength s) :=
  declaredPad_of_carries (packHeader_carries (assembleDescriptor_legal s.cfg s.ops.rid s.ops.tid hlength)) (padOf_le _)

/-! The statements. -/

/-- Settles O19: the bytes are those a packed header carries and those an unpacked one reads, and no check reads an id. -/
theorem sixteenBitIdsAreLittleEndian : Obligations.SixteenBitIdsAreLittleEndian := by
  refine ⟨?encoded, ?decoded, ?anyIdsEncode, ?anyIdsDecode⟩
  case encoded =>
    intro s t h hx hh
    obtain ⟨hlegal, rfl⟩ := encodeHdr_hdr_eq_some hx hh
    obtain ⟨-, -, -, -, hb4, hb5, -, -, hb8, hb9, hb10, hb11⟩ := packHeader_carries hlegal
    exact ⟨hb4, hb5, hb8, hb9, BitVec.eq_of_toNat_eq hb10, BitVec.eq_of_toNat_eq hb11⟩
  case decoded =>
    intro s t d hx hd
    obtain ⟨⟨-, -, -, -, -, -, hb10, hb11, -⟩, rfl⟩ := decodeHdr_desc_eq_some hx hd
    exact ⟨u16le_toNat _ _, u16le_toNat _ _, u16le_toNat _ _, hb10, hb11⟩
  case anyIdsEncode =>
    intro s t rid tid hx hok
    have hlegal : LegalDescriptor s.cfg s.ops.desc := encodeHdr_ok_iff.1 ⟨t, hx, hok⟩
    exact encodeHdr_ok_iff.2 hlegal
  case anyIdsDecode =>
    intro s t b4 b5 b8 b9 hx hok
    have hlegal : LegalHeader s.cfg s.ops.hdr := decodeHdr_ok_iff.1 ⟨t, hx, hok⟩
    exact decodeHdr_ok_iff.2 hlegal

/-- Settles O26: the frame in its four parts, whose header declares the padding that follows the payload. -/
theorem assembledFrameIsInWireOrderWithZeroPadding : Obligations.AssembledFrameIsInWireOrderWithZeroPadding := by
  intro s t f hx hf
  obtain ⟨hlength, -, rfl⟩ := assemble_frame_eq_some hx hf
  refine ⟨headerBytes (assembledHeader s), padOf (combinedLength s), rfl, headerBytes_length _, rfl, ?_⟩
  simp only [List.append_assoc, headerOf_headerBytes_append, declaredPad_assembledHeader hlength]

end Sys2Proof.Machine
end

section
/-! PROOF. The header codec (40_header_codec.md): an operation that concludes with a function of CFG and one operand reads
nothing else and writes its result port alone (R109). -/

namespace Sys2Proof.Machine

/-- ENCODE_HDR concludes with a function of CFG and DESC (R100). -/
theorem exec_encodeHdr (s : State) :
    exec .encodeHdr s = .next (s.conclude (encodeHeader s.cfg s.ops.desc) writeHdr) := rfl

/-- DECODE_HDR concludes with a function of CFG and HDR (R103). -/
theorem exec_decodeHdr (s : State) :
    exec .decodeHdr s = .next (s.conclude (decodeHeader s.cfg s.ops.hdr) writeDesc) := rfl

section
variable {α β : Type} {r : Except CmdError α} {write : α → ResultPorts}

/-- The result word of a concluded command is that of its outcome, whatever the state before. -/
theorem conclude_res_congr (s s' : State) : (s'.conclude r write).res = (s.conclude r write).res := by
  cases r <;> rfl

/-- The result ports after a concluded command are those of its outcome, whatever the state before. -/
theorem conclude_results_congr (s s' : State) : (s'.conclude r write).results = (s.conclude r write).results := by
  cases r <;> rfl

/-- What holds of empty result ports and of everything a command writes holds of the result ports after it (R205). -/
theorem conclude_results_of {P : ResultPorts → Prop} (hempty : P noResults) (hwrite : ∀ a, P (write a)) (s : State) :
    P (s.conclude r write).results := by
  cases r with
  | ok a => exact hwrite a
  | error e => exact hempty

/-- A command that concludes with a function of CFG and one operand answers the same from any two states that agree on
both, keeps CFG and the host's list, and leaves on the result ports what it writes or nothing. -/
theorem concluding_command_is_pure {i : Instr} {operand : OperandPorts → β} {codec : Cfg → β → Except CmdError α}
    {P : ResultPorts → Prop} (hexec : ∀ s, exec i s = .next (s.conclude (codec s.cfg (operand s.ops)) write))
    (hempty : P noResults) (hwrite : ∀ a, P (write a)) {s s' t : State}
    (hcfg : s.cfg = s'.cfg) (hoperand : operand s.ops = operand s'.ops) (hx : exec i s = .next t) :
    (∃ t', exec i s' = .next t' ∧ t'.res = t.res ∧ t'.results = t.results) ∧
      t.cfg = s.cfg ∧ t.host = s.host ∧ P t.results := by
  rw [hexec] at hx
  cases hx
  have hsame : exec i s' = .next (s'.conclude (codec s.cfg (operand s.ops)) write) := by
    rw [hexec, hcfg, hoperand]
  exact ⟨⟨_, hsame, conclude_res_congr s s', conclude_results_congr s s'⟩, conclude_cfg _ _ _, conclude_host _ _ _,
    conclude_results_of hempty hwrite s⟩

end

/-- Settles O20: both operations conclude with a function of CFG and their operand, and write HDR, or DESC, alone. -/
theorem headerCodecIsPure : Obligations.HeaderCodecIsPure := by
  constructor
  · intro s s' t hcfg hdesc hx
    exact concluding_command_is_pure (operand := OperandPorts.desc)
      (P := fun r => r = { noResults with hdr := r.hdr }) exec_encodeHdr rfl (fun _ => rfl) hcfg hdesc hx
  · intro s s' t hcfg hhdr hx
    exact concluding_command_is_pure (operand := OperandPorts.hdr)
      (P := fun r => r = { noResults with desc := r.desc }) exec_decodeHdr rfl (fun _ => rfl) hcfg hhdr hx

end Sys2Proof.Machine
end

section
/-! PROOF. The frame assembler (41_frame_assembler.md): which error a result word reports (R73, R78 to R80), and that ASSEMBLE
reports PayloadTooLarge exactly on a combined length above 4092 (R145, R152, R202). -/

namespace Sys2Proof.Machine

/-! A result word reports one outcome. -/

/-- The error a result word reports by its STATUS and INFO, none when STATUS is no error's (R78 to R80). -/
def errorOfRes (w : ResWord) : Option CmdError :=
  match resStatus w with
  | 1 => some (.encodingError (FieldId.ofNat (resInfo w).toNat))
  | 2 => some .payloadTooLarge
  | 3 => some .frameTooLarge
  | 4 => some (.malformedFrame (FieldId.ofNat (resInfo w).toNat))
  | 5 => some (.truncatedFrame (TruncReason.ofNat ((resInfo w).toNat - 1)))
  | 6 => some (.illegalCommand (IllegalReason.ofNat ((resInfo w).toNat - 1)))
  | _ => none

theorem errorOfRes_resError (e : CmdError) : errorOfRes (resError e) = some e := by
  cases e with
  | encodingError f => cases f <;> rfl
  | payloadTooLarge => rfl
  | frameTooLarge => rfl
  | malformedFrame f => cases f <;> rfl
  | truncatedFrame r => cases r <;> rfl
  | illegalCommand r => cases r <;> rfl

/-- STATUS and INFO tell every two errors apart. -/
theorem resError_injective : Function.Injective resError := by
  intro e e' h
  simpa only [errorOfRes_resError, Option.some.injEq] using congrArg errorOfRes h

section
variable {α : Type} {s : State} {e : CmdError} {r : Except CmdError α} {write : α → ResultPorts}

/-- RES reports an error exactly when the operation's function raised that error. -/
theorem conclude_res_error_iff : (s.conclude r write).res = some (resError e) ↔ r = .error e := by
  cases r with
  | ok a => simp [(resError_ne_resOk e).symm]
  | error e' => simp [resError_injective.eq_iff]

/-- An operation whose function raised an error ends with that error and writes no result port (R205). -/
theorem conclude_error_endsWith (hr : r = .error e) :
    EndsWith s (.next (s.conclude r write)) (resError e) noResults := by
  subst hr
  exact ⟨s.raise e, rfl, rfl, rfl, rfl, rfl⟩

end

/-! PayloadTooLarge. -/

/-- ASSEMBLE concludes with a function of CFG and its operands (R144). -/
theorem exec_assemble (s : State) :
    exec .assemble s =
      .next (s.conclude (assembleFrame s.cfg s.ops.mh s.ops.pl s.ops.rid s.ops.tid s.ops.tag) writeFrame) := rfl

/-- ASSEMBLE's function raises PayloadTooLarge exactly above the combined length a frame can carry, whatever CFG is. -/
theorem assembleFrame_payloadTooLarge_iff {cfg : Cfg} {mh pl : Bytes} {rid tid : Id16} {tag : BitVec 8} :
    assembleFrame cfg mh pl rid tid tag = .error .payloadTooLarge ↔ mh.length + pl.length > combinedMax := by
  rw [assembleFrame_eq]
  split
  next hlong => exact iff_of_true rfl hlong
  next hfits =>
    refine iff_of_false ?_ hfits
    split <;> simp

/-- Settles O23: ASSEMBLE's function raises PayloadTooLarge exactly above 4092 bytes, and RES reports that error exactly when
it is raised. -/
theorem assembleRaisesPayloadTooLargeFirst : Obligations.AssembleRaisesPayloadTooLargeFirst := by
  intro s
  refine ⟨?ceiling, ?raises, ?onlyThen, ?info⟩
  case ceiling => omega
  case raises =>
    intro hlong
    rw [exec_assemble]
    exact conclude_error_endsWith (assembleFrame_payloadTooLarge_iff.2 hlong)
  case onlyThen =>
    intro t hx hres
    rw [exec_assemble] at hx
    cases hx
    exact assembleFrame_payloadTooLarge_iff.1 (conclude_res_error_iff.1 hres)
  case info => rfl

end Sys2Proof.Machine
end

section
/-! PROOF. The frame disassembler (42_frame_disassembler.md): a header DECODE_HDR refuses (R172), the results as the two parts
of the span (R174, R175), and that nothing behind the span is looked at (R176). -/

namespace Sys2Proof.Machine

/-- DISASSEMBLE concludes with a function of CFG and its operands (R170). -/
theorem exec_disassemble (s : State) :
    exec .disassemble s = .next (s.conclude (disassembleFrame s.cfg s.ops.buf s.ops.hlen) writeSlices) := rfl

/-! A header DECODE_HDR refuses. -/

/-- Once the header is present, what DECODE_HDR raises on it is what DISASSEMBLE raises (R172). -/
theorem disassembleFrame_error_of_decodeHeader {cfg : Cfg} {buf : Bytes} {e : CmdError} (hlen : Nat)
    (hpresent : 12 ≤ buf.length) (hdec : decodeHeader cfg (headerOf buf) = .error e) :
    disassembleFrame cfg buf hlen = .error e := by
  rw [disassembleFrame_eq, if_neg (Nat.not_lt.2 hpresent), hdec]

/-- Settles O31: RES names the field DECODE_HDR raised, and DISASSEMBLE raises the same on the same twelve bytes. -/
theorem disassembleEndsAsDecodeHdrWhenMalformed : Obligations.DisassembleEndsAsDecodeHdrWhenMalformed := by
  intro s u v f hpresent hcfg hhdr hx hres
  rw [exec_decodeHdr] at hx
  cases hx
  have hdec : decodeHeader u.cfg u.ops.hdr = .error (.malformedFrame f) := conclude_res_error_iff.1 hres
  rw [hcfg, hhdr] at hdec
  rw [exec_disassemble]
  exact conclude_error_endsWith (disassembleFrame_error_of_decodeHeader s.ops.hlen hpresent hdec)

/-! The results are the two parts of the span. -/

/-- The start of a slice is the shorter slice from the same offset. -/
theorem memRead_take (s : Bytes) (off : Nat) {k n : Nat} (hk : k ≤ n) : (memRead s off n).take k = memRead s off k := by
  rw [memRead, List.take_take, Nat.min_eq_left hk, memRead]

/-- The rest of a slice is the slice from the later offset. -/
theorem memRead_drop (s : Bytes) (off k n : Nat) : (memRead s off n).drop k = memRead s (off + k) (n - k) := by
  rw [memRead, List.drop_take, List.drop_drop, memRead]

/-- A slice that stands within the string is read in full. -/
theorem memRead_length {s : Bytes} {off n : Nat} (h : off + n ≤ s.length) : (memRead s off n).length = n := by
  simp only [memRead, List.length_take, List.length_drop]; omega

/-- A slice that stands within the first part of a string does not see the second. -/
theorem memRead_append {s : Bytes} (t : Bytes) {off n : Nat} (h : off + n ≤ s.length) :
    memRead (s ++ t) off n = memRead s off n := by
  rw [memRead, List.drop_append_of_le_length (by omega), List.take_append_of_le_length (by rw [List.length_drop]; omega),
    memRead]

/-- A decoded descriptor's padding fits its region (R103), and the region without it is the declared span (R174). -/
theorem decodeHeader_span {cfg : Cfg} {buf : Bytes} {d : FrameDescriptor}
    (hdec : decodeHeader cfg (headerOf buf) = .ok d) :
    d.padLen ≤ 4 * d.lengthDwords ∧ 4 * d.lengthDwords - d.padLen = spanLength buf := by
  obtain ⟨⟨-, -, -, -, -, -, -, -, hpad⟩, rfl⟩ := decodeHeader_ok_iff.1 hdec
  simpa only [unpackHeader, headerLength_eq, headerPad_eq, spanLength, and_true] using hpad

/-- MH, PL and DESC after DISASSEMBLE are what its function answered. -/
theorem disassemble_results_eq_some {s t : State} {mh pl : Bytes} {d : FrameDescriptor}
    (hx : exec .disassemble s = .next t) (hmh : t.results.mh = some mh) (hpl : t.results.pl = some pl)
    (hd : t.results.desc = some d) : disassembleFrame s.cfg s.ops.buf s.ops.hlen = .ok (mh, pl, d) := by
  rw [exec_disassemble] at hx
  cases hx
  obtain ⟨r, hdis, hport⟩ := (conclude_port_eq_some_iff (port := ResultPorts.mh) rfl).1 hmh
  rw [hdis] at hpl hd
  cases hport
  cases hpl
  cases hd
  exact hdis

/-- Settles O32: MH and PL are the start and the rest of the span, which the buffer holds in full. -/
theorem disassembleStripsThePadding : Obligations.DisassembleStripsThePadding := by
  intro s t mh pl d hx hmh hpl hd
  obtain ⟨d', -, hdec, hregion, hsplit, hr⟩ :=
    disassembleFrame_ok_iff.1 (disassemble_results_eq_some hx hmh hpl hd)
  cases hr
  have hspan : memRead s.ops.buf 12 s.ops.hlen
        ++ memRead s.ops.buf (12 + s.ops.hlen) (4 * d.lengthDwords - d.padLen - s.ops.hlen)
      = memRead s.ops.buf 12 (4 * d.lengthDwords - d.padLen) := by
    rw [← memRead_take s.ops.buf 12 hsplit, ← memRead_drop, List.take_append_drop]
  rw [hspan]
  exact ⟨(decodeHeader_span hdec).1, rfl, memRead_length (by omega)⟩

/-! Nothing behind the span is looked at. -/

/-- Buffers of one length, with one header and one span, get one answer: DISASSEMBLE's function looks at nothing else. -/
theorem disassembleFrame_congr {buf buf' : Bytes} (cfg : Cfg) (hlen : Nat) (hlength : buf.length = buf'.length)
    (hheader : headerOf buf = headerOf buf')
    (hspan : memRead buf 12 (spanLength buf) = memRead buf' 12 (spanLength buf)) :
    disassembleFrame cfg buf hlen = disassembleFrame cfg buf' hlen := by
  rw [disassembleFrame_eq, disassembleFrame_eq, ← hlength, ← hheader]
  cases hdec : decodeHeader cfg (headerOf buf) with
  | error e => rfl
  | ok d =>
    simp only [(decodeHeader_span hdec).2]
    by_cases hsplit : spanLength buf < hlen
    · simp only [if_pos hsplit]
    · have hle : hlen ≤ spanLength buf := Nat.le_of_not_lt hsplit
      have hmh : memRead buf 12 hlen = memRead buf' 12 hlen := by
        rw [← memRead_take buf 12 hle, hspan, memRead_take buf' 12 hle]
      have hpl : memRead buf (12 + hlen) (spanLength buf - hlen) = memRead buf' (12 + hlen) (spanLength buf - hlen) := by
        rw [← memRead_drop, hspan, memRead_drop]
      rw [hmh, hpl]

/-- Behind a front that holds the header and the span, only the number of bytes counts. -/
theorem disassembleFrame_append_congr {front rest rest' : Bytes} (cfg : Cfg) (hlen : Nat)
    (hpresent : 12 ≤ front.length) (hfront : 12 + spanLength front ≤ front.length) (hrest : rest.length = rest'.length) :
    disassembleFrame cfg (front ++ rest) hlen = disassembleFrame cfg (front ++ rest') hlen := by
  have hheader : ∀ behind, headerOf (front ++ behind) = headerOf front := fun behind => headerOf_append behind hpresent
  have hspan : spanLength (front ++ rest) = spanLength front := by simp only [spanLength, hheader]
  apply disassembleFrame_congr
  · rw [List.length_append, List.length_append, hrest]
  · rw [hheader, hheader]
  · rw [hspan, memRead_append rest hfront, memRead_append rest' hfront]

/-- What the operand ports carried is gone when a command concludes (R28). -/
theorem conclude_of_ops {α : Type} (s : State) (o : OperandPorts) (r : Except CmdError α) (write : α → ResultPorts) :
    ({ s with ops := o } : State).conclude r write = s.conclude r write := by
  cases r <;> rfl

/-- Settles O33: the padding stands behind the header and the span, and its length is the same. -/
theorem disassembleIgnoresPaddingContent : Obligations.DisassembleIgnoresPaddingContent := by
  intro s front padding padding' after hfront hpresent _ hpadding
  have hbehind : (padding ++ after).length = (padding' ++ after).length := by
    rw [List.length_append, List.length_append, hpadding]
  have hsame : disassembleFrame s.cfg (front ++ (padding ++ after)) s.ops.hlen =
      disassembleFrame s.cfg (front ++ (padding' ++ after)) s.ops.hlen :=
    disassembleFrame_append_congr s.cfg s.ops.hlen hpresent hfront.ge hbehind
  simp only [exec_disassemble, conclude_of_ops, List.append_assoc, hsame]

end Sys2Proof.Machine
end

section
/-! PROOF. No error is fatal, and a repeated command recurs (R208): the outcome of a command word is a function of CFG and its
operands, and the block that took it still has CFG and the host's next command. -/

namespace Sys2Proof.Machine

/-- What an operation's function gives, written to its result ports or raised: it reads CFG and the operands alone (R205). -/
def instrOutcome (cfg : Cfg) (ops : OperandPorts) : Instr → Except CmdError ResultPorts
  | .encodeHdr => (encodeHeader cfg ops.desc).map writeHdr
  | .decodeHdr => (decodeHeader cfg ops.hdr).map writeDesc
  | .padCalc => .ok (writePadNdw (padOf ops.combined, dwordsOf ops.combined))
  | .assemble => (assembleFrame cfg ops.mh ops.pl ops.rid ops.tid ops.tag).map writeFrame
  | .disassemble => (disassembleFrame cfg ops.buf ops.hlen).map writeSlices

/-- The outcome of a command word: that of the operation it decodes to, or IllegalCommand (R76, R206). -/
def commandOutcome (cfg : Cfg) (ops : OperandPorts) (w : CmdWord) : Except CmdError ResultPorts :=
  match decode w with
  | .ok i => instrOutcome cfg ops i
  | .error r => .error (.illegalCommand r)

/-- Writing the result ports may be done in the outcome, before the command concludes with it. -/
theorem conclude_map {α : Type} (s : State) (r : Except CmdError α) (write : α → ResultPorts) :
    s.conclude (r.map write) id = s.conclude r write := by
  cases r <;> rfl

/-- A concluded command holds a result word, on OK and on every error (R78). -/
theorem conclude_res_some {α : Type} (s : State) (r : Except CmdError α) (write : α → ResultPorts) :
    ∃ word, (s.conclude r write).res = some word := by
  cases r with
  | ok a => exact ⟨resOk, rfl⟩
  | error e => exact ⟨resError e, rfl⟩

/-- Every operation concludes with its outcome. -/
theorem exec_eq_conclude (i : Instr) (s : State) :
    exec i s = .next (s.conclude (instrOutcome s.cfg s.ops i) id) := by
  cases i with
  | encodeHdr => rw [exec_encodeHdr, instrOutcome, conclude_map]
  | decodeHdr => rw [exec_decodeHdr, instrOutcome, conclude_map]
  | padCalc => rfl
  | assemble => rw [exec_assemble, instrOutcome, conclude_map]
  | disassemble => rw [exec_disassemble, instrOutcome, conclude_map]

/-- Every command word, illegal ones too, concludes with its outcome. -/
theorem runCommand_eq_conclude (w : CmdWord) (s : State) :
    runCommand w s = .next (s.conclude (commandOutcome s.cfg s.ops w) id) := by
  obtain ⟨i, hdecode, hrun⟩ | ⟨r, hdecode, hrun⟩ := runCommand_cases w s
  · rw [hrun, exec_eq_conclude, commandOutcome, hdecode]
  · rw [hrun, commandOutcome, hdecode, conclude_error]

/-- A command at the head of the host's list concludes with its outcome under the present CFG, from a state with that CFG and
the rest of the list to come. -/
theorem step_command_concludes {s : State} {w : CmdWord} {o : OperandPorts} {rest : List HostAction}
    (hhost : s.host = .command w o :: rest) :
    ∃ p : State, step s = .next (p.conclude (commandOutcome s.cfg o w) id) ∧ p.cfg = s.cfg ∧ p.host = rest :=
  ⟨({ s with host := rest } : State).present o, (step_command hhost).trans (runCommand_eq_conclude w _), rfl, rfl⟩

/-- Settles O41: the first command concludes with CFG and the second command in place, so the second concludes under the same
CFG; when it is the first again, the two outcomes are one. -/
theorem noErrorIsFatalAndRepeatedCommandsRecur : Obligations.NoErrorIsFatalAndRepeatedCommandsRecur := by
  intro s w w' o o' rest hhost
  obtain ⟨p, hfirst, hpcfg, hphost⟩ := step_command_concludes hhost
  have htcfg : (p.conclude (commandOutcome s.cfg o w) id).cfg = s.cfg := by rw [conclude_cfg, hpcfg]
  have hthost : (p.conclude (commandOutcome s.cfg o w) id).host = .command w' o' :: rest := by rw [conclude_host, hphost]
  obtain ⟨q, hsecond, hqcfg, -⟩ := step_command_concludes hthost
  rw [htcfg] at hsecond hqcfg
  refine ⟨_, _, hfirst, hsecond, htcfg, by rw [conclude_cfg, hqcfg], conclude_res_some _ _ _, ?_⟩
  rintro rfl rfl
  exact ⟨conclude_res_congr p q, conclude_results_congr p q⟩

end Sys2Proof.Machine
end

section
/-! PROOF. Every command is total (R241): whatever its function answers, a command concludes, and a concluded command holds a
result word. -/

namespace Sys2Proof.Machine

/-- An outcome whose next state is a concluded command's has a result word (R78). -/
theorem completes_of_eq_conclude {α : Type} {outcome : Host.Outcome State Fault Refusal} {s : State} {r : Except CmdError α}
    {write : α → ResultPorts} (hconclude : outcome = .next (s.conclude r write)) : Completes outcome := by
  obtain ⟨word, hword⟩ := conclude_res_some s r write
  exact ⟨s.conclude r write, word, hconclude, hword⟩

/-- Settles O37: every operation, and every command word whether it decodes or not, concludes with its outcome. -/
theorem everyCommandIsTotal : Obligations.EveryCommandIsTotal := by
  constructor
  case left => exact fun i s => completes_of_eq_conclude (exec_eq_conclude i s)
  case right => exact fun w s => completes_of_eq_conclude (runCommand_eq_conclude w s)

end Sys2Proof.Machine
end

section
/-! PROOF. Result words in numbers (R78, R79), and how a command that concludes ends for the host. -/

namespace Sys2Proof.Machine

/-- RES as a number: INFO above STATUS (R78). -/
theorem resultWord_toNat (status : BitVec 4) (info : BitVec 8) :
    (resultWord status info).toNat = 256 * info.toNat + status.toNat := by
  have hstatus : status.toNat < 2 ^ 4 := status.isLt
  simp only [resultWord, BitVec.toNat_append, BitVec.toNat_ofNat, Nat.zero_mod, Nat.zero_shiftLeft, Nat.zero_or,
    Nat.or_zero]
  rw [or_shift_toNat hstatus, Nat.shiftLeft_eq]
  omega

theorem resultWord_eq_resOf (status : BitVec 4) (info : BitVec 8) :
    resultWord status info = resOf status.toNat info.toNat := by
  have hstatus := status.isLt
  have hinfo := info.isLt
  apply BitVec.eq_of_toNat_eq
  rw [resultWord_toNat, resOf, BitVec.toNat_ofNat, Nat.mod_eq_of_lt (by omega)]

theorem resOk_eq_resOf : resOk = resOf 0 0 := resultWord_eq_resOf _ _

theorem resError_eq_resOf (e : CmdError) : resError e = resOf (errorStatus e).toNat (errorInfo e).toNat :=
  resultWord_eq_resOf _ _

/-- Settles O11: a result word is `resOf` of its STATUS and INFO, and each field's INFO is its code of R73. -/
theorem resultWordsHaveTheListedCodes : Obligations.ResultWordsHaveTheListedCodes := by
  refine ⟨rfl, ?fields, rfl, rfl, rfl, rfl, rfl, rfl, rfl⟩
  case fields =>
    intro f n hlisted
    have hcode : (fieldCode f).toNat = n := by cases f <;> simp_all [fieldCode]
    constructor
    · rw [resError_eq_resOf, ← hcode]; rfl
    · rw [resError_eq_resOf, ← hcode]; rfl

section
variable {α : Type} {s t : State} {a : α} {e : CmdError} {r : Except CmdError α} {write : α → ResultPorts}

/-- What a next state shows the host. -/
theorem endsWith_next_iff {w : ResWord} {p : ResultPorts} :
    EndsWith s (.next t) w p ↔ t.res = some w ∧ t.results = p ∧ t.cfg = s.cfg ∧ t.host = s.host := by
  constructor
  · rintro ⟨t', ht, h⟩
    cases ht
    exact h
  · exact fun h => ⟨t, rfl, h⟩

/-- An operation whose function answered a value ends OK with what it writes on the result ports (R13). -/
theorem conclude_ok_endsWith (hr : r = .ok a) : EndsWith s (.next (s.conclude r write)) (resOf 0 0) (write a) := by
  subst hr
  exact endsWith_next_iff.2 ⟨congrArg some resOk_eq_resOf, rfl, rfl, rfl⟩

/-- An operation whose function raised an error ends with its STATUS and INFO and writes no result port (R205). -/
theorem conclude_error_endsWith_resOf (hr : r = .error e) :
    EndsWith s (.next (s.conclude r write)) (resOf (errorStatus e).toNat (errorInfo e).toNat) noResults := by
  rw [← resError_eq_resOf]
  exact conclude_error_endsWith hr

end

end Sys2Proof.Machine
end

section
/-! PROOF. The header codec (40_header_codec.md): packing and unpacking are inverse to each other (R107, R108), because a
legal header is determined by what it carries, and the checks are taken in the fixed order of R209. -/

namespace Sys2Proof.Machine

/-! What a header carries. -/

/-- The twelve bytes are determined by what they carry. -/
theorem carries_unique {cfg : Cfg} {h h' : Header} {len pad : Nat} {rid tid : Id16}
    (hc : HeaderCarries cfg h len pad rid tid) (hc' : HeaderCarries cfg h' len pad rid tid) : h = h' := by
  cases h
  cases h'
  simp only [HeaderCarries] at hc hc'
  simp only [Header.mk.injEq, ← BitVec.toNat_inj]
  omega

section
variable {cfg : Cfg} {h : Header} {len pad : Nat} {rid tid : Id16}

/-- A header that carries a length of ten bits declares it (R71). -/
theorem declaredLength_of_carries (hc : HeaderCarries cfg h len pad rid tid) (hlen : len ≤ 1023) :
    declaredLength h = len := by
  obtain ⟨-, -, hb2, hb3, -⟩ := hc
  rw [declaredLength, hb2, hb3]
  omega

/-- A header that carries a length and a padding within R26's bounds is legal (R60). -/
theorem legalHeader_of_carries (hc : HeaderCarries cfg h len pad rid tid) (hlen : len ≤ 1023) (hpad : pad ≤ 3)
    (hfits : pad ≤ 4 * len) : LegalHeader cfg h := by
  have hbounds : declaredPad h ≤ 4 * declaredLength h := by
    rwa [declaredPad_of_carries hc hpad, declaredLength_of_carries hc hlen]
  obtain ⟨hb0, hb1, hb2, -, -, -, hb6, hb7, -, -, hb10, hb11⟩ := hc
  have hsubcode := cfg.subcode.isLt
  exact ⟨hb0, BitVec.eq_of_toNat_eq hb1, by omega, by omega, by omega, BitVec.eq_of_toNat_eq hb7,
    BitVec.eq_of_toNat_eq hb10, BitVec.eq_of_toNat_eq hb11, hbounds⟩

/-- A legal header carries what it declares. -/
theorem carries_declared (hlegal : LegalHeader cfg h) :
    HeaderCarries cfg h (declaredDescriptor cfg h).lengthDwords (declaredDescriptor cfg h).padLen
      (declaredDescriptor cfg h).requesterId (declaredDescriptor cfg h).targetId := by
  obtain ⟨hb0, hb1, hb2, hreserved, hsubcode, hb7, hb10, hb11, -⟩ := hlegal
  have hid : ∀ lo hi : Byte, (BitVec.ofNat 16 (lo.toNat + 256 * hi.toNat)).toNat = lo.toNat + 256 * hi.toNat := by
    intro lo hi
    have := lo.isLt
    have := hi.isLt
    exact Nat.mod_eq_of_lt (by omega)
  have := h.b3.isLt
  have := h.b4.isLt
  have := h.b8.isLt
  simp only [HeaderCarries, declaredDescriptor, declaredLength, declaredPad, hid, hb1, hb7, hb10, hb11]
  refine ⟨hb0, rfl, ?_, ?_, ?_, ?_, ?_, rfl, ?_, ?_, rfl, rfl⟩ <;> omega

/-- A header that carries the free fields of a legal descriptor declares that descriptor. -/
theorem declaredDescriptor_of_carries {d : FrameDescriptor} (hd : LegalDescriptor cfg d)
    (hc : HeaderCarries cfg h d.lengthDwords d.padLen d.requesterId d.targetId) : declaredDescriptor cfg h = d := by
  obtain ⟨⟨hfmt, hrouting, htc, htd, hep, hattr, hsubcode, hmsg, hvendor⟩, hlen, hpad, -⟩ := hd
  have hlength := declaredLength_of_carries hc hlen
  have hpadding := declaredPad_of_carries hc hpad
  obtain ⟨-, -, -, -, hb4, hb5, -, -, hb8, hb9, -⟩ := hc
  have hid : ∀ (lo hi : Byte) (v : Id16), lo.toNat = v.toNat % 256 → hi.toNat = v.toNat / 256 →
      BitVec.ofNat 16 (lo.toNat + 256 * hi.toNat) = v := by
    intro lo hi v hlo hhi
    rw [hlo, hhi, Nat.mod_add_div, BitVec.ofNat_toNat, BitVec.setWidth_eq]
  cases d
  simp only [declaredDescriptor, hlength, hpadding, hid _ _ _ hb4 hb5, hid _ _ _ hb8 hb9]
  simp_all

/-- What a legal header declares is a legal descriptor (R103). -/
theorem declaredDescriptor_legal (hlegal : LegalHeader cfg h) : LegalDescriptor cfg (declaredDescriptor cfg h) := by
  obtain ⟨-, -, -, -, -, -, -, -, hfits⟩ := hlegal
  exact ⟨⟨rfl, rfl, rfl, rfl, rfl, rfl, rfl, rfl, rfl⟩, declaredLength_le h, declaredPad_le h, hfits⟩

/-- Unpacking a legal header gives the descriptor it declares (R103). -/
theorem unpackHeader_of_legal (hlegal : LegalHeader cfg h) : unpackHeader h = declaredDescriptor cfg h := by
  obtain ⟨hb0, hb1, hb2, hreserved, hsubcode, hb7, hb10, hb11, -⟩ := hlegal
  have hrouting := cfg.routing.isLt
  have hattr := cfg.attr.isLt
  have hb2lt := h.b2.isLt
  have hvendor : u16le 0x1A 0xB4 = 0xB41A := by decide
  have hid : ∀ lo hi : Byte, u16le lo hi = BitVec.ofNat 16 (lo.toNat + 256 * hi.toNat) := by
    intro lo hi
    rw [← u16le_toNat, BitVec.ofNat_toNat, BitVec.setWidth_eq]
  simp only [unpackHeader, declaredDescriptor, headerLength_eq, headerPad_eq, hb7, hb10, hb11, hvendor,
    FrameDescriptor.mk.injEq, true_and, and_true, hid]
  simp [hb1, ← BitVec.toNat_inj, Nat.shiftRight_eq_div_pow]
  omega

/-- DECODE_HDR's function answers what a legal header declares. -/
theorem decodeHeader_of_legal (hlegal : LegalHeader cfg h) : decodeHeader cfg h = .ok (declaredDescriptor cfg h) :=
  decodeHeader_ok_iff.2 ⟨hlegal, (unpackHeader_of_legal hlegal).symm⟩

end

/-- What DECODE_HDR's function answers is a legal descriptor (R103). -/
theorem decodeHeader_ok_legal {cfg : Cfg} {h : Header} {d : FrameDescriptor} (hdec : decodeHeader cfg h = .ok d) :
    LegalDescriptor cfg d := by
  obtain ⟨hlegal, rfl⟩ := decodeHeader_ok_iff.1 hdec
  rw [unpackHeader_of_legal hlegal]
  exact declaredDescriptor_legal hlegal

/-! The round trips. -/

/-- A packed legal descriptor is a legal header (R100). -/
theorem packHeader_legal {cfg : Cfg} {d : FrameDescriptor} (hd : LegalDescriptor cfg d) : LegalHeader cfg (packHeader d) := by
  have hcarries := packHeader_carries hd
  obtain ⟨-, hlen, hpad, hfits⟩ := hd
  exact legalHeader_of_carries hcarries hlen hpad hfits

/-- Decoding a packed legal descriptor gives it back (R107). -/
theorem decodeHeader_packHeader {cfg : Cfg} {d : FrameDescriptor} (hd : LegalDescriptor cfg d) :
    decodeHeader cfg (packHeader d) = .ok d := by
  rw [decodeHeader_of_legal (packHeader_legal hd), declaredDescriptor_of_carries hd (packHeader_carries hd)]

/-- Packing what a legal header declares gives the header back (R108). -/
theorem packHeader_declaredDescriptor {cfg : Cfg} {h : Header} (hlegal : LegalHeader cfg h) :
    packHeader (declaredDescriptor cfg h) = h :=
  carries_unique (packHeader_carries (declaredDescriptor_legal hlegal)) (carries_declared hlegal)

/-- Encoding what a legal header declares gives the header back (R108). -/
theorem encodeHeader_declaredDescriptor {cfg : Cfg} {h : Header} (hlegal : LegalHeader cfg h) :
    encodeHeader cfg (declaredDescriptor cfg h) = .ok h :=
  encodeHeader_ok_iff.2 ⟨declaredDescriptor_legal hlegal, (packHeader_declaredDescriptor hlegal).symm⟩

/-- Settles O16: HDR is the packed descriptor, which was legal, and decoding it gives the descriptor back. -/
theorem encodeThenDecodeReturnsTheDescriptor : Obligations.EncodeThenDecodeReturnsTheDescriptor := by
  intro s t u h hx hh hcfg hhdr
  obtain ⟨hlegal, rfl⟩ := encodeHdr_hdr_eq_some hx hh
  rw [exec_decodeHdr, hhdr, hcfg]
  exact conclude_ok_endsWith (write := writeDesc) (decodeHeader_packHeader hlegal)

/-- Settles O17: DESC is what the header declares, and a legal header is determined by what it declares. -/
theorem decodeThenEncodeReturnsTheHeader : Obligations.DecodeThenEncodeReturnsTheHeader := by
  intro s t u d hx hd hcfg hdesc
  obtain ⟨hlegal, rfl⟩ := decodeHdr_desc_eq_some hx hd
  rw [unpackHeader_of_legal hlegal] at hdesc
  rw [exec_encodeHdr, hdesc, hcfg]
  exact conclude_ok_endsWith (write := writeHdr) (encodeHeader_declaredDescriptor hlegal)

/-! Legal operands. -/

/-- Settles O12: a legal descriptor is packed, and the packed header carries its fields. -/
theorem encodeHdrPacksEveryEncodableDescriptor : Obligations.EncodeHdrPacksEveryEncodableDescriptor := by
  intro s hlegal
  refine ⟨packHeader s.ops.desc, ?_, packHeader_carries hlegal⟩
  rw [exec_encodeHdr]
  exact conclude_ok_endsWith (write := writeHdr) (encodeHeader_ok_iff.2 ⟨hlegal, rfl⟩)

/-- Settles O14: a legal header decodes to what it declares. -/
theorem decodeHdrUnpacksEveryLegalHeader : Obligations.DecodeHdrUnpacksEveryLegalHeader := by
  intro s hlegal
  rw [exec_decodeHdr]
  exact conclude_ok_endsWith (write := writeDesc) (decodeHeader_of_legal hlegal)

/-- Settles O18: the length's two bytes are those a packed header carries and those an unpacked one declares. -/
theorem lengthIsSplitHighBitsThenLowByte : Obligations.LengthIsSplitHighBitsThenLowByte := by
  constructor
  case left =>
    intro s t h hx hh
    obtain ⟨hlegal, rfl⟩ := encodeHdr_hdr_eq_some hx hh
    obtain ⟨-, -, hb2, hb3, -⟩ := packHeader_carries hlegal
    obtain ⟨-, hlen, -⟩ := hlegal
    exact ⟨by omega, hb3⟩
  case right =>
    intro s t d hx hd
    obtain ⟨-, rfl⟩ := decodeHdr_desc_eq_some hx hd
    exact headerLength_eq _

/-! The first failing check. -/

/-- Two bit vectors differ in their numbers exactly when the codec's test says that they differ. -/
theorem toNat_ne_iff_bne {w : Nat} (x y : BitVec w) : x.toNat ≠ y.toNat ↔ (x != y) = true := by
  rw [bne_iff_ne, ne_eq, ne_eq, BitVec.toNat_inj]

/-- The statement's chain of tests on a descriptor is the list of checks, with the field's code. -/
theorem encodeFailure_eq (cfg : Cfg) (d : FrameDescriptor) :
    encodeFailure cfg d = (firstFailure (encodeChecks cfg d)).map fun f => (fieldCode f).toNat := by
  have hgt : ∀ a b : Nat, a > b ↔ decide (a > b) = true := fun a b => decide_eq_true_iff.symm
  unfold encodeFailure encodeChecks
  refine firstFailure_code_cons (toNat_ne_iff_bne _ fmtTypeValue) rfl ?_
  refine firstFailure_code_cons (toNat_ne_iff_bne _ _) rfl ?_
  refine firstFailure_code_cons (toNat_ne_iff_bne _ tcValue) rfl ?_
  refine firstFailure_code_cons (toNat_ne_iff_bne _ tdValue) rfl ?_
  refine firstFailure_code_cons (toNat_ne_iff_bne _ epValue) rfl ?_
  refine firstFailure_code_cons (toNat_ne_iff_bne _ _) rfl ?_
  refine firstFailure_code_cons (hgt _ _) rfl ?_
  refine firstFailure_code_cons (hgt _ _) rfl ?_
  refine firstFailure_code_cons (hgt _ _) rfl ?_
  refine firstFailure_code_cons (toNat_ne_iff_bne _ _) rfl ?_
  refine firstFailure_code_cons (toNat_ne_iff_bne _ msgCode) rfl ?_
  exact firstFailure_code_cons (toNat_ne_iff_bne _ vendorIdValue) rfl rfl

/-- A bit field of a byte differs from a value exactly when its number does. -/
theorem bitField_bne_iff {hi lo : Nat} (b : Byte) (v : BitVec (hi - lo + 1)) :
    (b.extractLsb hi lo != v) = true ↔ b.toNat / 2 ^ lo % 2 ^ (hi - lo + 1) ≠ v.toNat := by
  rw [← toNat_ne_iff_bne, BitVec.extractLsb_toNat, Nat.shiftRight_eq_div_pow]

/-- The statement's chain of tests on a header is the list of checks, with the field's code. -/
theorem decodeFailure_eq (cfg : Cfg) (h : Header) :
    decodeFailure cfg h = (firstFailure (decodeChecks cfg h)).map fun f => (fieldCode f).toNat := by
  have hb0 := h.b0.isLt
  have hb2 := h.b2.isLt
  have hb6 := h.b6.isLt
  have hreserved : ∀ b : Byte, (b.toNat / 128 ≠ 0 ∨ b.toNat % 16 ≠ 0) ↔ (b &&& 0x8F != 0) = true := by decide
  unfold decodeFailure decodeChecks
  apply firstFailure_code_cons ?fmtType (by rfl)
  apply firstFailure_code_cons ?routing (by rfl)
  apply firstFailure_code_cons ?trafficClass (by rfl)
  apply firstFailure_code_cons (hreserved h.b1) (by rfl)
  apply firstFailure_code_cons ?td (by rfl)
  apply firstFailure_code_cons ?ep (by rfl)
  apply firstFailure_code_cons ?attr (by rfl)
  apply firstFailure_code_cons ?rsvdB2 (by rfl)
  apply firstFailure_code_cons ?rsvdB6 (by rfl)
  apply firstFailure_code_cons ?subcode (by rfl)
  apply firstFailure_code_cons (toNat_ne_iff_bne h.b7 msgCode) (by rfl)
  apply firstFailure_code_cons ?vendorId (by rfl)
  apply firstFailure_code_cons ?padLen (by rfl) (by rfl)
  case vendorId =>
    rw [Bool.or_eq_true, ← toNat_ne_iff_bne, ← toNat_ne_iff_bne]
    rfl
  case padLen => rw [decide_eq_true_iff, headerPad_eq, headerLength_eq]
  all_goals
    rw [bitField_bne_iff]
    simp [fmtTypeValue, tcValue, tdValue, epValue]
  all_goals omega

/-- When the chain of tests on a descriptor names a code, ENCODE_HDR's function raises the field of that code. -/
theorem encodeHeader_of_failure {cfg : Cfg} {d : FrameDescriptor} {code : Nat} (hfail : encodeFailure cfg d = some code) :
    ∃ f, encodeHeader cfg d = .error (.encodingError f) ∧ (fieldCode f).toNat = code := by
  rw [encodeFailure_eq, Option.map_eq_some_iff] at hfail
  obtain ⟨f, hfirst, hcode⟩ := hfail
  exact ⟨f, by rw [encodeHeader, hfirst], hcode⟩

/-- When the chain of tests on a descriptor names none, ENCODE_HDR's function packs it. -/
theorem encodeHeader_of_no_failure {cfg : Cfg} {d : FrameDescriptor} (hpass : encodeFailure cfg d = none) :
    encodeHeader cfg d = .ok (packHeader d) := by
  rw [encodeFailure_eq, Option.map_eq_none_iff] at hpass
  rw [encodeHeader, hpass]

/-- When the chain of tests on a header names a code, DECODE_HDR's function raises the field of that code. -/
theorem decodeHeader_of_failure {cfg : Cfg} {h : Header} {code : Nat} (hfail : decodeFailure cfg h = some code) :
    ∃ f, decodeHeader cfg h = .error (.malformedFrame f) ∧ (fieldCode f).toNat = code := by
  rw [decodeFailure_eq, Option.map_eq_some_iff] at hfail
  obtain ⟨f, hfirst, hcode⟩ := hfail
  exact ⟨f, by rw [decodeHeader, hfirst], hcode⟩

/-- The chain of tests on a header names none exactly when the header is legal. -/
theorem decodeFailure_eq_none_iff {cfg : Cfg} {h : Header} : decodeFailure cfg h = none ↔ LegalHeader cfg h := by
  rw [decodeFailure_eq, Option.map_eq_none_iff, decodeChecks_none_iff]

/-- Settles O13: the first failing field is raised with its code; when there is none the descriptor is packed. -/
theorem encodeHdrReportsTheFirstFailingField : Obligations.EncodeHdrReportsTheFirstFailingField := by
  intro s
  rw [exec_encodeHdr]
  cases hfail : encodeFailure s.cfg s.ops.desc with
  | some code =>
    obtain ⟨f, herror, rfl⟩ := encodeHeader_of_failure hfail
    exact conclude_error_endsWith_resOf herror
  | none => exact ⟨_, conclude_ok_endsWith (write := writeHdr) (encodeHeader_of_no_failure hfail)⟩

/-- Settles O15: the first failing check is raised with its field's code; when there is none the header is legal. -/
theorem decodeHdrReportsTheFirstFailingCheck : Obligations.DecodeHdrReportsTheFirstFailingCheck := by
  intro s
  rw [exec_decodeHdr]
  cases hfail : decodeFailure s.cfg s.ops.hdr with
  | some code =>
    obtain ⟨f, herror, rfl⟩ := decodeHeader_of_failure hfail
    exact conclude_error_endsWith_resOf herror
  | none =>
    exact ⟨_, conclude_ok_endsWith (write := writeDesc) (decodeHeader_of_legal (decodeFailure_eq_none_iff.1 hfail))⟩

end Sys2Proof.Machine
end

section
/-! PROOF. PAD_CALC and ASSEMBLE (41_frame_assembler.md): the least padding, the three outcomes of ASSEMBLE by the two limits,
and the shape of the frame it emits. -/

namespace Sys2Proof.Machine

/-! PAD_CALC. -/

/-- The DWORD length is the combined length over four, rounded up (R142). -/
theorem dwordsOf_eq_ceil (c : Nat) : dwordsOf c = (c + 3) / 4 := by
  simp only [dwordsOf, padOf]; omega

/-- The padding makes the length a multiple of four (R141). -/
theorem padOf_aligns (c : Nat) : (c + padOf c) % 4 = 0 := by
  simp only [padOf]; omega

/-- No smaller number makes the length a multiple of four (R141). -/
theorem padOf_least {c q : Nat} (hq : (c + q) % 4 = 0) : padOf c ≤ q := by
  simp only [padOf]; omega

/-- PAD_CALC ends OK with the padding and the DWORD length of its operand (R140, R143). -/
theorem padCalc_endsWith (s : State) :
    EndsWith s (exec .padCalc s) (resOf 0 0) (writePadNdw (padOf s.ops.combined, dwordsOf s.ops.combined)) :=
  conclude_ok_endsWith (r := .ok (padOf s.ops.combined, dwordsOf s.ops.combined)) rfl

/-- Settles O21: PAD_CALC writes `padOf` and `dwordsOf` of its operand. -/
theorem padCalcGivesLeastPaddingAndDwords : Obligations.PadCalcGivesLeastPaddingAndDwords := by
  intro s
  exact ⟨padOf s.ops.combined, dwordsOf s.ops.combined, padCalc_endsWith s, padOf_le _, padOf_aligns _,
    fun _ => padOf_least, dwordsOf_eq_ceil _, dwordsOf_eq _⟩

/-! The outcomes of ASSEMBLE. -/

/-- The frame ASSEMBLE builds from its operands: header, MH, PL and zero padding (R144, R148). -/
def assembledFrame (s : State) : Bytes :=
  headerBytes (assembledHeader s) ++ s.ops.mh ++ s.ops.pl ++ zeros (padOf (combinedLength s))

/-- ASSEMBLE's function on the operand ports, with its two limits in the terms of the statements. -/
theorem assembleFrame_ports_eq (s : State) :
    assembleFrame s.cfg s.ops.mh s.ops.pl s.ops.rid s.ops.tid s.ops.tag =
      if combinedLength s > 4092 then .error .payloadTooLarge
      else if 12 + 4 * ((combinedLength s + 3) / 4) > s.cfg.maxFrame then .error .frameTooLarge
      else .ok (assembledFrame s) := by
  rw [← dwordsOf_eq_ceil]
  exact assembleFrame_eq _ _ _ _ _ _

/-- Above 4092 bytes ASSEMBLE ends with PayloadTooLarge, whatever CFG is (R145, R152). -/
theorem assemble_payloadTooLarge {s : State} (hlong : combinedLength s > 4092) :
    EndsWith s (exec .assemble s) (resOf 2 0) noResults := by
  rw [exec_assemble]
  exact conclude_error_endsWith_resOf (assembleFrame_payloadTooLarge_iff.2 hlong)

/-- Up to 4092 bytes, but with a frame above CFG.MAX_FRAME, ASSEMBLE ends with FrameTooLarge (R147). -/
theorem assemble_frameTooLarge {s : State} (hfits : combinedLength s ≤ 4092)
    (hframe : s.cfg.maxFrame < 12 + 4 * ((combinedLength s + 3) / 4)) :
    EndsWith s (exec .assemble s) (resOf 3 0) noResults := by
  have herror : assembleFrame s.cfg s.ops.mh s.ops.pl s.ops.rid s.ops.tid s.ops.tag = .error .frameTooLarge := by
    rw [assembleFrame_ports_eq, if_neg (Nat.not_lt.2 hfits), if_pos hframe]
  rw [exec_assemble]
  exact conclude_error_endsWith_resOf herror

/-- Within both limits ASSEMBLE ends OK with its frame (R144, R146). -/
theorem assemble_ok {s : State} (hfits : combinedLength s ≤ 4092)
    (hframe : 12 + 4 * ((combinedLength s + 3) / 4) ≤ s.cfg.maxFrame) :
    EndsWith s (exec .assemble s) (resOf 0 0) (writeFrame (assembledFrame s)) := by
  have hok : assembleFrame s.cfg s.ops.mh s.ops.pl s.ops.rid s.ops.tid s.ops.tag = .ok (assembledFrame s) := by
    rw [assembleFrame_ports_eq, if_neg (Nat.not_lt.2 hfits), if_neg (Nat.not_lt.2 hframe)]
  rw [exec_assemble]
  exact conclude_ok_endsWith hok

/-- The result word of ASSEMBLE says which of the two limits it met (R145, R146, R147). -/
theorem assemble_res_cases {s t : State} (hx : exec .assemble s = .next t) :
    (combinedLength s > 4092 ∧ t.res = some (resOf 2 0)) ∨
      (combinedLength s ≤ 4092 ∧ s.cfg.maxFrame < 12 + 4 * ((combinedLength s + 3) / 4) ∧ t.res = some (resOf 3 0)) ∨
      (combinedLength s ≤ 4092 ∧ 12 + 4 * ((combinedLength s + 3) / 4) ≤ s.cfg.maxFrame ∧ t.res = some (resOf 0 0)) := by
  have hres : ∀ {w p}, EndsWith s (exec .assemble s) w p → t.res = some w := by
    intro w p hends
    rw [hx] at hends
    exact (endsWith_next_iff.1 hends).1
  by_cases hlong : combinedLength s > 4092
  · exact .inl ⟨hlong, hres (assemble_payloadTooLarge hlong)⟩
  · have hfits := Nat.le_of_not_lt hlong
    by_cases hframe : s.cfg.maxFrame < 12 + 4 * ((combinedLength s + 3) / 4)
    · exact .inr (.inl ⟨hfits, hframe, hres (assemble_frameTooLarge hfits hframe)⟩)
    · have hframe := Nat.le_of_not_lt hframe
      exact .inr (.inr ⟨hfits, hframe, hres (assemble_ok hfits hframe)⟩)

/-- The header before an assembled frame carries the lengths and the ids (R144). -/
theorem assembledHeader_carries {s : State} (hfits : combinedLength s ≤ 4092) :
    HeaderCarries s.cfg (assembledHeader s) (dwordsOf (combinedLength s)) (padOf (combinedLength s)) s.ops.rid
      s.ops.tid :=
  packHeader_carries (assembleDescriptor_legal s.cfg s.ops.rid s.ops.tid hfits)

/-- Settles O22: the frame is the assembled one, and its header carries the lengths and the ids. -/
theorem assembleBuildsTheFrame : Obligations.AssembleBuildsTheFrame := by
  intro s hfits hframe
  refine ⟨assembledHeader s, padOf (combinedLength s), assemble_ok hfits hframe, ?_, ?_⟩
  · rw [← dwordsOf_eq_ceil, dwordsOf_eq]
  · rw [← dwordsOf_eq_ceil]
    exact assembledHeader_carries hfits

/-- Settles O24: of the three outcomes only the one above CFG.MAX_FRAME has STATUS 3. -/
theorem assembleRaisesFrameTooLarge : Obligations.AssembleRaisesFrameTooLarge := by
  intro s
  refine ⟨assemble_frameTooLarge, ?_⟩
  intro t hx hres
  have hpayload : resOf 2 0 ≠ resOf 3 0 := by decide
  have hok : resOf 0 0 ≠ resOf 3 0 := by decide
  obtain ⟨-, h⟩ | ⟨hfits, hframe, -⟩ | ⟨-, -, h⟩ := assemble_res_cases hx
  · exact absurd (Option.some.inj (h.symm.trans hres)) hpayload
  · exact ⟨hfits, hframe⟩
  · exact absurd (Option.some.inj (h.symm.trans hres)) hok

/-- Settles O25: of the three outcomes only the one within both limits is OK. -/
theorem assembleIsOkExactlyWithinLimits : Obligations.AssembleIsOkExactlyWithinLimits := by
  intro s t hx
  have hpayload : resOf 2 0 ≠ resOf 0 0 := by decide
  have hframeTooLarge : resOf 3 0 ≠ resOf 0 0 := by decide
  have hok : t.res = some (resOf 0 0) ↔
      combinedLength s ≤ 4092 ∧ 12 + 4 * ((combinedLength s + 3) / 4) ≤ s.cfg.maxFrame := by
    obtain ⟨hlong, hres⟩ | ⟨-, hframe, hres⟩ | ⟨hfits, hframe, hres⟩ := assemble_res_cases hx
    · exact iff_of_false (by simpa [hres] using hpayload) (by omega)
    · exact iff_of_false (by simpa [hres] using hframeTooLarge) (by omega)
    · exact iff_of_true hres ⟨hfits, hframe⟩
  refine ⟨?outcomes, hok, ?default⟩
  case outcomes =>
    obtain ⟨-, hres⟩ | ⟨-, -, hres⟩ | ⟨-, -, hres⟩ := assemble_res_cases hx
    · exact .inr (.inl hres)
    · exact .inr (.inr hres)
    · exact .inl hres
  case default =>
    intro hmax
    rw [hok, hmax]
    omega

/-! The frame. -/

/-- FRAME after ASSEMBLE is the assembled frame, within both limits. -/
theorem assemble_frame_eq_assembledFrame {s t : State} {f : Bytes} (hx : exec .assemble s = .next t)
    (hf : t.results.frame = some f) :
    combinedLength s ≤ 4092 ∧ 12 + 4 * dwordsOf (combinedLength s) ≤ s.cfg.maxFrame ∧ f = assembledFrame s :=
  assemble_frame_eq_some hx hf

/-- The assembled frame is header and region long (R151). -/
theorem assembledFrame_length (s : State) : (assembledFrame s).length = 12 + 4 * dwordsOf (combinedLength s) := by
  rw [dwordsOf_eq]
  simp only [assembledFrame, List.length_append, headerBytes_length, zeros_length, combinedLength]
  omega

@[simp] theorem headerOf_assembledFrame (s : State) : headerOf (assembledFrame s) = assembledHeader s := by
  simp only [assembledFrame, List.append_assoc, headerOf_headerBytes_append]

theorem declaredLength_assembledHeader {s : State} (hfits : combinedLength s ≤ 4092) :
    declaredLength (assembledHeader s) = dwordsOf (combinedLength s) :=
  declaredLength_of_carries (assembledHeader_carries hfits) (by rw [dwordsOf_eq_ceil]; omega)

/-- After the header come MH and PL and then the padding. -/
theorem assembledFrame_drop_header (s : State) :
    (assembledFrame s).drop 12 = s.ops.mh ++ s.ops.pl ++ zeros (padOf (combinedLength s)) := by
  rw [assembledFrame, List.append_assoc, List.append_assoc, List.append_assoc]
  exact List.drop_left' (headerBytes_length _)

theorem combinedLength_eq_append_length (s : State) : combinedLength s = (s.ops.mh ++ s.ops.pl).length :=
  List.length_append.symm

/-- The assembled frame has the shape of R151. -/
theorem assembledFrame_shape {s : State} (hfits : combinedLength s ≤ 4092) : FrameShape (assembledFrame s) := by
  unfold FrameShape
  rw [headerOf_assembledFrame, declaredLength_assembledHeader hfits, assembledFrame_length]
  exact ⟨⟨s.cfg, packHeader_legal (assembleDescriptor_legal s.cfg s.ops.rid s.ops.tid hfits)⟩, rfl⟩

/-- Settles O27: the assembled frame's length is that of header and region, and its parts stand one after the other. -/
theorem assembledFrameHasDeclaredAlignedLength : Obligations.AssembledFrameHasDeclaredAlignedLength := by
  intro s t f hx hf
  obtain ⟨hfits, hmax, rfl⟩ := assemble_frame_eq_assembledFrame hx hf
  have hlength := assembledFrame_length s
  refine ⟨?declared, ?holdsOperands, by omega, ?operands, ?padding⟩
  case declared => rw [headerOf_assembledFrame, declaredLength_assembledHeader hfits, hlength]
  case holdsOperands => rw [hlength, dwordsOf_eq]; omega
  case operands => rw [assembledFrame_drop_header, combinedLength_eq_append_length, List.take_left]
  case padding =>
    intro b hb
    rw [← List.drop_drop, assembledFrame_drop_header, combinedLength_eq_append_length, List.drop_left] at hb
    exact List.eq_of_mem_replicate hb

/-- Settles O28: ASSEMBLE's function does not read TAG, and the operands are gone when it ends. -/
theorem assembleIgnoresTag : Obligations.AssembleIgnoresTag := by
  intro s tag
  rw [exec_assemble, exec_assemble, conclude_of_ops, assembleFrame_eq, assembleFrame_eq]

end Sys2Proof.Machine
end

section
/-! PROOF. DISASSEMBLE (42_frame_disassembler.md) on buffers with a legal header, its checks in the order of R179, and the round
trip of an assembled frame (R181, R238). -/

namespace Sys2Proof.Machine

/-! Buffers with a legal header. -/

/-- After a legal header only SHORT_REGION and SHORT_SPAN are left to raise (R173, R175, R179). -/
theorem disassembleFrame_of_legal {cfg : Cfg} {buf : Bytes} (hlen : Nat) (hpresent : 12 ≤ buf.length)
    (hlegal : LegalHeader cfg (headerOf buf)) :
    disassembleFrame cfg buf hlen =
      if buf.length < 12 + 4 * declaredLength (headerOf buf) then .error (.truncatedFrame .shortRegion)
      else if spanLength buf < hlen then .error (.truncatedFrame .shortSpan)
      else .ok (memRead buf 12 hlen, memRead buf (12 + hlen) (spanLength buf - hlen),
        declaredDescriptor cfg (headerOf buf)) := by
  rw [disassembleFrame_eq, if_neg (Nat.not_lt.2 hpresent), decodeHeader_of_legal hlegal]
  rfl

/-- A buffer with a legal header, its region and a long enough span is sliced (R170). -/
theorem disassembleFrame_ok_of_legal {cfg : Cfg} {buf : Bytes} {hlen : Nat} (hlegal : LegalHeader cfg (headerOf buf))
    (hregion : 12 + 4 * declaredLength (headerOf buf) ≤ buf.length) (hspan : hlen ≤ spanLength buf) :
    disassembleFrame cfg buf hlen =
      .ok ((buf.drop 12).take hlen, (buf.drop (12 + hlen)).take (spanLength buf - hlen),
        declaredDescriptor cfg (headerOf buf)) := by
  rw [disassembleFrame_of_legal hlen (by omega) hlegal, if_neg (Nat.not_lt.2 hregion), if_neg (Nat.not_lt.2 hspan)]
  rfl

/-- A header that is not legal is refused by DECODE_HDR's function. -/
theorem decodeHeader_error_of_not_legal {cfg : Cfg} {h : Header} (hillegal : ¬ LegalHeader cfg h) :
    ∃ e, decodeHeader cfg h = .error e := by
  cases hdec : decodeHeader cfg h with
  | error e => exact ⟨e, rfl⟩
  | ok d => exact absurd (decodeHeader_ok_iff.1 hdec).1 hillegal

/-- Settles O29: the two slices and what the header declares. -/
theorem disassembleSlicesEveryLegalFrame : Obligations.DisassembleSlicesEveryLegalFrame := by
  intro s hlegal hregion hspan
  rw [exec_disassemble]
  exact conclude_ok_endsWith (write := writeSlices) (disassembleFrame_ok_of_legal hlegal hregion hspan)

/-- Settles O30: the checks one after the other, the header's own in the middle. -/
theorem disassembleReportsTheFirstFailingCheck : Obligations.DisassembleReportsTheFirstFailingCheck := by
  intro s
  simp only [exec_disassemble]
  by_cases hpresent : s.ops.buf.length < 12
  · rw [if_pos hpresent]
    exact conclude_error_endsWith_resOf (e := .truncatedFrame .shortHeader) (by rw [disassembleFrame_eq, if_pos hpresent])
  rw [if_neg hpresent]
  have hpresent := Nat.le_of_not_lt hpresent
  cases hfail : decodeFailure s.cfg (headerOf s.ops.buf) with
  | some code =>
    obtain ⟨f, hdec, rfl⟩ := decodeHeader_of_failure hfail
    exact conclude_error_endsWith_resOf (disassembleFrame_error_of_decodeHeader s.ops.hlen hpresent hdec)
  | none =>
    have hlegal := decodeFailure_eq_none_iff.1 hfail
    have hdis := disassembleFrame_of_legal s.ops.hlen hpresent hlegal
    dsimp only
    split
    next hregion =>
      rw [if_pos hregion] at hdis
      exact conclude_error_endsWith_resOf hdis
    next hregion =>
      rw [if_neg hregion] at hdis
      split
      next hspan =>
        rw [if_pos hspan] at hdis
        exact conclude_error_endsWith_resOf hdis
      next hspan =>
        rw [if_neg hspan] at hdis
        exact ⟨_, _, _, conclude_ok_endsWith (write := writeSlices) hdis⟩

/-! Bytes after the region. -/

/-- Once the region is there, DISASSEMBLE's function does not see what comes after it (R177). -/
theorem disassembleFrame_append {buf : Bytes} (cfg : Cfg) (after : Bytes) (hlen : Nat) (hpresent : 12 ≤ buf.length)
    (hregion : 12 + 4 * declaredLength (headerOf buf) ≤ buf.length) :
    disassembleFrame cfg (buf ++ after) hlen = disassembleFrame cfg buf hlen := by
  have hheader : headerOf (buf ++ after) = headerOf buf := headerOf_append after hpresent
  have hspanLength : spanLength (buf ++ after) = spanLength buf := by rw [spanLength, spanLength, hheader]
  have hlonger : buf.length ≤ (buf ++ after).length := by simp
  by_cases hlegal : LegalHeader cfg (headerOf buf)
  · rw [disassembleFrame_of_legal hlen hpresent hlegal, disassembleFrame_of_legal hlen (by omega) (by rwa [hheader]),
      hheader, hspanLength, if_neg (Nat.not_lt.2 hregion), if_neg (Nat.not_lt.2 (hregion.trans hlonger))]
    split
    · rfl
    next hspan =>
      have hwithin : 12 + spanLength buf ≤ buf.length := by rw [spanLength]; omega
      rw [memRead_append after (by omega), memRead_append after (by omega)]
  · obtain ⟨e, hdec⟩ := decodeHeader_error_of_not_legal hlegal
    rw [disassembleFrame_error_of_decodeHeader hlen hpresent hdec,
      disassembleFrame_error_of_decodeHeader hlen (by omega) (by rwa [hheader])]

/-- Settles O34: the function's answer is the same, and the operands are gone when the command ends. -/
theorem disassembleIgnoresBytesAfterTheRegion : Obligations.DisassembleIgnoresBytesAfterTheRegion := by
  intro s buf after hpresent hregion
  simp only [exec_disassemble, conclude_of_ops, disassembleFrame_append s.cfg after s.ops.hlen hpresent hregion]

/-! Assembled frames. -/

/-- The descriptor an assembled frame carries (R144). -/
def assembledDescriptor (s : State) : FrameDescriptor :=
  assembleDescriptor s.cfg (combinedLength s) s.ops.rid s.ops.tid

/-- A slice from the header's end of an assembled frame, up to the padding, is the start of MH and PL. -/
theorem memRead_assembledFrame (s : State) (after : Bytes) {n : Nat} (hn : n ≤ combinedLength s) :
    memRead (assembledFrame s ++ after) 12 n = (s.ops.mh ++ s.ops.pl).take n := by
  have hlength := assembledFrame_length s
  have hdwords := dwordsOf_eq (combinedLength s)
  rw [memRead_append after (by omega), memRead, assembledFrame_drop_header,
    List.take_append_of_le_length (by rwa [← combinedLength_eq_append_length])]

/-- An assembled frame, with any bytes after it, is split at HLEN when MH and PL have that many bytes, and is otherwise short
of its span (R181, R238). -/
theorem disassembleFrame_assembledFrame {s : State} (after : Bytes) (hlen : Nat) (hfits : combinedLength s ≤ 4092) :
    disassembleFrame s.cfg (assembledFrame s ++ after) hlen =
      if combinedLength s < hlen then .error (.truncatedFrame .shortSpan)
      else .ok ((s.ops.mh ++ s.ops.pl).take hlen, (s.ops.mh ++ s.ops.pl).drop hlen, assembledDescriptor s) := by
  have hlength := assembledFrame_length s
  have hlonger : (assembledFrame s).length ≤ (assembledFrame s ++ after).length := by simp
  have hheader : headerOf (assembledFrame s ++ after) = assembledHeader s := by
    rw [headerOf_append after (by omega), headerOf_assembledFrame]
  have hdec : decodeHeader s.cfg (headerOf (assembledFrame s ++ after)) = .ok (assembledDescriptor s) := by
    rw [hheader]
    exact decodeHeader_packHeader (assembleDescriptor_legal s.cfg s.ops.rid s.ops.tid hfits)
  have hregion : (assembledDescriptor s).lengthDwords = dwordsOf (combinedLength s) := rfl
  have hspan : 4 * dwordsOf (combinedLength s) - (assembledDescriptor s).padLen = combinedLength s := by
    rw [dwordsOf_eq]
    exact Nat.add_sub_cancel _ _
  rw [disassembleFrame_eq, if_neg (by omega), hdec]
  dsimp only
  rw [hregion, hspan, if_neg (by omega)]
  split
  · rfl
  next hsplit =>
    have hsplit := Nat.le_of_not_lt hsplit
    rw [← memRead_drop, memRead_assembledFrame s after hsplit, memRead_assembledFrame s after le_rfl,
      combinedLength_eq_append_length, List.take_length]

/-- An assembled frame split at the length of MH gives MH and PL back (R181). -/
theorem disassembleFrame_assembledFrame_mh {s : State} (after : Bytes) (hfits : combinedLength s ≤ 4092) :
    disassembleFrame s.cfg (assembledFrame s ++ after) s.ops.mh.length =
      .ok (s.ops.mh, s.ops.pl, assembledDescriptor s) := by
  have hmh : s.ops.mh.length ≤ combinedLength s := Nat.le_add_right _ _
  rw [disassembleFrame_assembledFrame after _ hfits, if_neg (Nat.not_lt.2 hmh), List.take_left, List.drop_left]

/-- Settles O35: the assembled frame is split at the end of MH, and its descriptor is the one ASSEMBLE packed. -/
theorem assembleThenDisassembleReturnsTheOperands : Obligations.AssembleThenDisassembleReturnsTheOperands := by
  intro s t u f after hx hf hcfg hbuf hhlen
  obtain ⟨hfits, -, rfl⟩ := assemble_frame_eq_assembledFrame hx hf
  refine ⟨assembledDescriptor s, ?_, assembleDescriptor_legal s.cfg s.ops.rid s.ops.tid hfits, rfl, rfl,
    dwordsOf_eq_ceil _, rfl⟩
  rw [exec_disassemble, hcfg, hbuf, hhlen]
  exact conclude_ok_endsWith (write := writeSlices) (disassembleFrame_assembledFrame_mh after hfits)

/-- Settles O36: the assembled frame's span is MH and PL, split at HLEN or shorter than it. -/
theorem otherHlenSplitsTheSameSpan : Obligations.OtherHlenSplitsTheSameSpan := by
  intro s t u f hx hf hcfg hbuf
  obtain ⟨hfits, -, rfl⟩ := assemble_frame_eq_assembledFrame hx hf
  have hdis := disassembleFrame_assembledFrame [] u.ops.hlen hfits
  rw [List.append_nil] at hdis
  rw [exec_disassemble, hcfg, hbuf]
  constructor
  case left =>
    intro hsplit
    rw [if_neg (Nat.not_lt.2 hsplit)] at hdis
    exact ⟨assembledDescriptor s, conclude_ok_endsWith (write := writeSlices) hdis⟩
  case right =>
    intro hshort
    rw [if_pos hshort] at hdis
    exact conclude_error_endsWith_resOf hdis

end Sys2Proof.Machine
end

section
/-! PROOF. Command words (30_encoding.md R74 to R76): the decoder takes exactly the five words of the encoder, and names why it
rejects any other; what a step does with a word. -/

namespace Sys2Proof.Machine

/-! The decoder. -/

/-- An OP value names the operation whose number it is (R75). -/
theorem opOf_eq_some_iff {op : BitVec 3} {i : Instr} : opOf op = some i ↔ opNumber i = op := by
  revert op
  cases i with
  | encodeHdr => decide
  | decodeHdr => decide
  | padCalc => decide
  | assemble => decide
  | disassemble => decide

/-- The reserved OP values are 5 and above (R75). -/
theorem opOf_eq_none_iff {op : BitVec 3} : opOf op = none ↔ 5 ≤ op.toNat := by
  revert op
  decide

/-- OP is the word modulo 8 (R74). -/
theorem op_toNat (w : CmdWord) : (w.extractLsb 2 0).toNat = w.toNat % 8 := by simp

/-- The bits above OP are clear exactly in the words below 8 (R74). -/
theorem upperBits_eq_zero_iff (w : CmdWord) : w.extractLsb 31 3 = 0 ↔ w.toNat < 8 := by
  have hw := w.isLt
  rw [← BitVec.toNat_inj, BitVec.extractLsb_toNat, Nat.shiftRight_eq_div_pow]
  simp
  omega

/-- The word of an operation is its number (R74). -/
theorem encode_toNat (i : Instr) : (encode i).toNat = (opNumber i).toNat := by
  cases i <;> rfl

theorem decode_of_reserved_op {w : CmdWord} (hop : 5 ≤ w.toNat % 8) : decode w = .error .reservedOp := by
  rw [← op_toNat, ← opOf_eq_none_iff] at hop
  rw [decode, hop]

/-- A defined OP names an operation, and the upper bits decide whether the word is its word (R75, R76). -/
theorem decode_of_defined_op {w : CmdWord} (hop : w.toNat % 8 ≤ 4) :
    ∃ i, (opNumber i).toNat = w.toNat % 8 ∧
      decode w = if w.toNat < 8 then .ok i else .error .reservedBits := by
  rw [← op_toNat] at hop ⊢
  cases hi : opOf (w.extractLsb 2 0) with
  | none => exact absurd (opOf_eq_none_iff.1 hi) (by omega)
  | some i =>
    refine ⟨i, congrArg BitVec.toNat (opOf_eq_some_iff.1 hi), ?_⟩
    simp only [decode, hi, upperBits_eq_zero_iff]

/-- Settles O7: OP is looked at first, then the upper bits; a word of at most 4 is the number of its operation. -/
theorem decodeClassifiesEveryWord : Obligations.DecodeClassifiesEveryWord := by
  intro w
  refine ⟨decode_of_reserved_op, ?reservedBits, ?operation⟩
  case reservedBits =>
    intro hop hupper
    obtain ⟨i, -, hdec⟩ := decode_of_defined_op hop
    rw [hdec, if_neg (Nat.not_lt.2 hupper)]
  case operation =>
    intro hw
    obtain ⟨i, hnumber, hdec⟩ := decode_of_defined_op (w := w) (by omega)
    refine ⟨i, by rw [hdec, if_pos (by omega)], BitVec.eq_of_toNat_eq ?_⟩
    rw [encode_toNat, hnumber]
    omega

/-- Decoding the word of an operation gives the operation back (R75). -/
theorem decode_encode (i : Instr) : decode (encode i) = .ok i := by
  cases i <;> rfl

/-- Settles O6: decoding inverts encoding on every operation. -/
theorem decodeOfEncodeIsTheCommand : Obligations.DecodeOfEncodeIsTheCommand :=
  fun i _ => decode_encode i

/-- Settles O5: the five words are those of the encoder. -/
theorem commandWordsDecodeToTheirOperations : Obligations.CommandWordsDecodeToTheirOperations :=
  ⟨decode_encode .encodeHdr, decode_encode .decodeHdr, decode_encode .padCalc, decode_encode .assemble,
    decode_encode .disassemble⟩

/-! What a step does with a word. -/

/-- A word that decodes runs its operation. -/
theorem runCommand_of_decode_ok {w : CmdWord} {i : Instr} (hdec : decode w = .ok i) (s : State) :
    runCommand w s = exec i s := by
  rw [runCommand, hdec]

/-- A word that does not decode ends with IllegalCommand and its reason (R76, R206). -/
theorem runCommand_of_decode_error {w : CmdWord} {r : IllegalReason} (hdec : decode w = .error r) (s : State) :
    EndsWith s (runCommand w s) (resOf 6 (illegalCode r).toNat) noResults := by
  rw [runCommand_eq_conclude]
  exact conclude_error_endsWith_resOf (e := .illegalCommand r) (by rw [commandOutcome, hdec])

/-- Settles O8: a word of 5 or more has a reserved OP or reserved bits, and a step answers it with that reason. -/
theorem illegalWordAnswersIllegalCommand : Obligations.IllegalWordAnswersIllegalCommand := by
  intro s w o rest hhost hw
  rw [step_command hhost]
  split
  next hop => exact runCommand_of_decode_error (decode_of_reserved_op hop) _
  next hop =>
    obtain ⟨-, hreservedBits, -⟩ := decodeClassifiesEveryWord w
    exact runCommand_of_decode_error (hreservedBits (by omega) (by omega)) _

/-- A table word that decodes is the word of the command it is presented as (R74). -/
theorem decode_of_decodeTableWord {nbits n : Nat} {i : Instr} (htable : decodeTableWord nbits n = some i) :
    decode (tableWord nbits n) = .ok i := by
  unfold decodeTableWord at htable
  split at htable
  · cases hw : decode (tableWord nbits n) with
    | ok j =>
      rw [hw] at htable
      exact congrArg Except.ok (Option.some.inj htable)
    | error r => rw [hw] at htable; cases htable
  · cases htable

/-- Settles O9: a listed command runs on its own operands, and a placed word on the operands the ports carry. -/
theorem stepRunsTheDecodedCommand : Obligations.StepRunsTheDecodedCommand := by
  constructor
  case left =>
    intro s w o rest i hhost hdec _
    rw [step_command hhost, runCommand_of_decode_ok hdec]
    rfl
  case right =>
    intro s nbits n i htable _
    rw [State.withFetchWord, step_command (presentWord_host s _), runCommand_of_decode_ok (decode_of_decodeTableWord htable)]
    rfl

end Sys2Proof.Machine
end

section
/-! PROOF. The host's side of the machine: reset (R230), waiting, configuration writes (R21, R232), disturbed commands (R235,
R236), what a command leaves unchanged (R21, R205), which ports hold a value, and that a dutiful host never stops the machine
(R241). -/

namespace Sys2Proof.Machine

/-! Reset and waiting. -/

/-- Settles O1: the fields of the state after reset. -/
theorem resetStateHoldsCfgDefaultsAndNothingElse : Obligations.ResetStateHoldsCfgDefaultsAndNothingElse :=
  ⟨rfl, rfl, rfl, rfl, rfl, rfl, rfl, rfl⟩

/-- A step performs the host's next interaction on the state without it. -/
theorem step_of_host {s : State} {a : HostAction} {rest : List HostAction} (hhost : s.host = a :: rest) :
    step s = act a { s with host := rest } := by
  rw [step, hhost]

/-- A reset leaves of a state only what the host still has to do (R230). -/
theorem resetBlock_eq (s : State) : s.resetBlock = { State.reset with host := s.host } := rfl

/-- Settles O2: a reset, alone or during a command, resets the block. -/
theorem resetActionClearsTheBlock : Obligations.ResetActionClearsTheBlock := by
  intro s a rest hhost ha
  rw [step_of_host hhost]
  obtain rfl | ⟨w, o, rfl⟩ := ha
  · exact congrArg Host.Outcome.next (resetBlock_eq _)
  · exact congrArg Host.Outcome.next (resetBlock_eq _)

/-- Settles O10: with nothing to perform the state stays. -/
theorem blockWithoutHostActionWaits : Obligations.BlockWithoutHostActionWaits := by
  intro s hhost
  rw [step, hhost]

/-- Settles O45: both disturbances are refused under their own names. -/
theorem disturbedCommandIsRefused : Obligations.DisturbedCommandIsRefused := by
  intro s w o rest
  constructor
  case left => exact fun hhost => step_of_host hhost
  case right => exact fun hhost => step_of_host hhost

/-! Configuration writes. -/

section
variable {s : State} {number value : Nat} {rest : List HostAction}

/-- An accepted configuration write changes CFG alone (R21). -/
theorem step_writeCfg_ok {c : Cfg} (hhost : s.host = .writeCfg number value :: rest)
    (hwrite : cfgWrite s.cfg number value = .ok c) : step s = .next { s with host := rest, cfg := c } := by
  rw [step_of_host hhost]
  simp only [act, hwrite]

/-- A configuration write outside the map of R21 stops the machine under its own name. -/
theorem step_writeCfg_refused {r : Refusal} (hhost : s.host = .writeCfg number value :: rest)
    (hwrite : cfgWrite s.cfg number value = .error r) : step s = .refused r := by
  rw [step_of_host hhost]
  simp only [act, hwrite]

end

/-- Settles O43: register by register, the write is accepted up to the register's greatest value. -/
theorem hostWritesCfgByNumber : Obligations.HostWritesCfgByNumber := by
  intro s number value rest hhost
  refine ⟨?maxFrame, ?routing, ?attr, ?subcode, ?illegalValue, ?noRegister⟩
  case maxFrame =>
    rintro rfl
    exact step_writeCfg_ok hhost rfl
  case routing =>
    rintro rfl hvalue
    exact step_writeCfg_ok hhost (if_pos (Nat.lt_succ_of_le hvalue))
  case attr =>
    rintro rfl hvalue
    exact step_writeCfg_ok hhost (if_pos (Nat.lt_succ_of_le hvalue))
  case subcode =>
    rintro rfl hvalue
    exact step_writeCfg_ok hhost (if_pos (Nat.lt_succ_of_le hvalue))
  case illegalValue =>
    rintro (⟨rfl, hvalue⟩ | ⟨rfl, hvalue⟩ | ⟨rfl, hvalue⟩)
    · exact step_writeCfg_refused hhost (if_neg (Nat.not_lt.2 hvalue))
    · exact step_writeCfg_refused hhost (if_neg (Nat.not_lt.2 hvalue))
    · exact step_writeCfg_refused hhost (if_neg (Nat.not_lt.2 hvalue))
  case noRegister =>
    intro hnumber
    obtain ⟨n, rfl⟩ := Nat.exists_eq_add_of_le' hnumber
    exact step_writeCfg_refused hhost rfl

/-! What a command leaves unchanged. -/

/-- Settles O38: every command word concludes. -/
theorem commandLeavesCfgAndReleasesOperands : Obligations.CommandLeavesCfgAndReleasesOperands := by
  intro w s t hrun
  rw [runCommand_eq_conclude] at hrun
  cases hrun
  exact ⟨conclude_cfg _ _ _, conclude_host _ _ _, conclude_ops _ _ _, conclude_res_some _ _ _⟩

/-- A command that does not end OK has raised an error, and its result ports are empty (R205). -/
theorem conclude_results_of_not_ok {α : Type} {s : State} {r : Except CmdError α} {write : α → ResultPorts}
    (hres : (s.conclude r write).res ≠ some (resOf 0 0)) : (s.conclude r write).results = noResults := by
  cases r with
  | ok a => exact absurd (congrArg some resOk_eq_resOf) hres
  | error e => rfl

/-- Settles O39: every command word concludes, and without OK it wrote nothing. -/
theorem errorWritesNoResultPort : Obligations.ErrorWritesNoResultPort := by
  intro w s t hrun hres
  rw [runCommand_eq_conclude] at hrun
  cases hrun
  exact ⟨conclude_results_of_not_ok hres, conclude_cfg _ _ _, conclude_host _ _ _⟩

/-- Settles O44: of all a step can do, a command keeps CFG and a read changes nothing. -/
theorem onlyHostWriteOrResetChangesCfg : Obligations.OnlyHostWriteOrResetChangesCfg := by
  intro s t hstep hcfg
  obtain ⟨-, hwait⟩ | ⟨a, rest, hhost, hact⟩ := step_cases s
  · rw [hwait] at hstep
    cases hstep
    exact absurd rfl hcfg
  refine ⟨a, rest, hhost, ?_⟩
  rw [hact] at hstep
  obtain ⟨-, hreset⟩ | ⟨number, value, -, rfl, -, -⟩ | ⟨w, o, -, hrun⟩ | ⟨p, v, -, -, rfl⟩ := act_cases hstep
  · exact hreset.imp_right .inl
  · exact .inr (.inr ⟨number, value, rfl⟩)
  · obtain ⟨hkept, -⟩ := commandLeavesCfgAndReleasesOperands w _ t hrun
    exact absurd hkept hcfg
  · exact absurd rfl hcfg

/-! Earlier commands. -/

/-- Two states that step alike run alike. -/
theorem core_run_congr {s s' : State} (k : Nat) (hstep : step s = step s') :
    Sys2Proof.core.run (k + 1) s = Sys2Proof.core.run (k + 1) s' := by
  have hcore : Sys2Proof.core.step s = Sys2Proof.core.step s' := hstep
  simp only [Host.Core.run, hcore]

/-- A command at the head of the host's list leaves CFG and the rest of the list. -/
theorem step_command_next {s : State} {w : CmdWord} {o : OperandPorts} {rest : List HostAction}
    (hhost : s.host = .command w o :: rest) : ∃ t, step s = .next t ∧ t.cfg = s.cfg ∧ t.host = rest := by
  obtain ⟨p, hstep, hpcfg, hphost⟩ := step_command_concludes hhost
  exact ⟨_, hstep, by rw [conclude_cfg, hpcfg], by rw [conclude_host, hphost]⟩

/-- Running a list of commands and one more is running the one more from a state with the same CFG. -/
theorem core_run_commands {w : CmdWord} {o : OperandPorts} (earlier : List (CmdWord × OperandPorts)) {s : State}
    (hhost : s.host = earlier.map (fun c => HostAction.command c.1 c.2) ++ [.command w o]) :
    ∃ t, Sys2Proof.core.run (earlier.length + 1) s = Sys2Proof.core.run 1 t ∧ t.cfg = s.cfg ∧
      t.host = [.command w o] := by
  induction earlier generalizing s with
  | nil => exact ⟨s, rfl, rfl, hhost⟩
  | cons c earlier ih =>
    obtain ⟨t, hstep, htcfg, hthost⟩ := step_command_next hhost
    obtain ⟨u, hrun, hucfg, huhost⟩ := ih hthost
    exact ⟨u, (core_run_succ _ hstep).trans hrun, hucfg.trans htcfg, huhost⟩

/-- Settles O42: the earlier commands leave CFG, and CFG is all the last one sees. -/
theorem earlierCommandsDoNotChangeAnOutcome : Obligations.EarlierCommandsDoNotChangeAnOutcome := by
  intro s earlier w o
  obtain ⟨t, hrun, hcfg, hhost⟩ := core_run_commands earlier
    (s := { s with host := earlier.map (fun c => HostAction.command c.1 c.2) ++ [.command w o] }) rfl
  rw [hrun]
  exact core_run_congr 0 (onlyCfgLastsBetweenCommands _ _ w o [] hcfg hhost hhost.symm)

/-! Reading the result ports. -/

/-- With no result word and nothing written no port holds a value. -/
theorem holdsValue_of_noResults {s : State} (hresults : s.results = noResults) (p : ResultPort) :
    s.holdsValue p = true ↔ p = .res ∧ s.res.isSome = true := by
  cases p <;> simp [hresults, noResults]

/-- A written outcome is a value of the operation's function and what is written of it. -/
theorem map_eq_ok_iff {α : Type} {r : Except CmdError α} {write : α → ResultPorts} {p : ResultPorts} :
    r.map write = .ok p ↔ ∃ a, r = .ok a ∧ write a = p := by
  cases r <;> simp [Except.map]

/-- After an operation ended OK, RES and its own result ports hold values and no other (R77). -/
theorem holdsValue_ok_of_instrOutcome {cfg : Cfg} {ops : OperandPorts} {i : Instr} {r : ResultPorts}
    (hout : instrOutcome cfg ops i = .ok r) (s : State) (p : ResultPort) :
    (s.ok r).holdsValue p = true ↔ p = .res ∨ p ∈ resultPortsOf i := by
  cases i with
  | encodeHdr =>
    obtain ⟨h, -, rfl⟩ := map_eq_ok_iff.1 hout
    cases p <;> simp [writeHdr, noResults, resultPortsOf]
  | decodeHdr =>
    obtain ⟨d, -, rfl⟩ := map_eq_ok_iff.1 hout
    cases p <;> simp [writeDesc, noResults, resultPortsOf]
  | padCalc =>
    cases hout
    cases p <;> simp [writePadNdw, noResults, resultPortsOf]
  | assemble =>
    obtain ⟨f, -, rfl⟩ := map_eq_ok_iff.1 hout
    cases p <;> simp [writeFrame, noResults, resultPortsOf]
  | disassemble =>
    obtain ⟨slices, -, rfl⟩ := map_eq_ok_iff.1 hout
    cases p <;> simp [writeSlices, noResults, resultPortsOf]

/-- Settles O46: a read answers exactly what a port holds, and a concluded command holds what its outcome wrote. -/
theorem readingAnUnwrittenResultFaults : Obligations.ReadingAnUnwrittenResultFaults := by
  refine ⟨?read, ?reset, ?operation, ?notOk⟩
  case read =>
    intro s p rest hhost
    rw [step_of_host hhost]
    have hholds : ({ s with host := rest } : State).holdsValue p = s.holdsValue p := by cases p <;> rfl
    obtain ⟨hsome, v, hread⟩ | ⟨hnone, hread⟩ := readPort_cases { s with host := rest } p
    · rw [hholds] at hsome
      simp [act, hread, hsome]
    · rw [hholds] at hnone
      simp [act, hread, hnone]
  case reset => intro p; cases p <;> rfl
  case operation =>
    intro i s t p hx
    rw [exec_eq_conclude] at hx
    cases hx
    cases hout : instrOutcome s.cfg s.ops i with
    | ok r => simp [holdsValue_ok_of_instrOutcome hout, resOk_eq_resOf]
    | error e =>
      have hne : resError e ≠ resOf 0 0 := resOk_eq_resOf ▸ resError_ne_resOk e
      simpa [hne] using holdsValue_of_noResults (raise_results s e) p
  case notOk =>
    intro w s t p hrun hres
    obtain ⟨hresults, -⟩ := errorWritesNoResultPort w s t hrun hres
    obtain ⟨-, -, -, word, hword⟩ := commandLeavesCfgAndReleasesOperands w s t hrun
    simp [holdsValue_of_noResults hresults, hword]

/-! A dutiful host. -/

/-- A configuration write of the map of R21 is accepted. -/
theorem cfgWrite_of_legal {number value : Nat} (hlegal : cfgWriteLegal number value = true) (c : Cfg) :
    ∃ c', cfgWrite c number value = .ok c' := by
  match number with
  | 0 => exact ⟨_, rfl⟩
  | 1 => exact ⟨_, if_pos (of_decide_eq_true hlegal)⟩
  | 2 => exact ⟨_, if_pos (of_decide_eq_true hlegal)⟩
  | 3 => exact ⟨_, if_pos (of_decide_eq_true hlegal)⟩
  | n + 4 => cases hlegal

/-- A dutiful interaction answers a next state and leaves the rest of the host's list. -/
theorem act_of_dutiful {a : HostAction} (hduty : a.dutiful = true) (s : State) :
    ∃ t, act a s = .next t ∧ t.host = s.host := by
  cases a with
  | reset => exact ⟨s.resetBlock, rfl, rfl⟩
  | writeCfg number value =>
    obtain ⟨c, hwrite⟩ := cfgWrite_of_legal hduty s.cfg
    exact ⟨{ s with cfg := c }, by simp only [act, hwrite], rfl⟩
  | command w o => exact ⟨_, runCommand_eq_conclude w _, by rw [conclude_host, present_host]⟩
  | disturbed w o d =>
    cases of_decide_eq_true hduty
    exact ⟨s.resetBlock, rfl, rfl⟩
  | readPort p => cases hduty

/-- From a state whose host is dutiful a step leads to such a state. -/
theorem step_of_dutiful {s : State} (hduty : ∀ a ∈ s.host, a.dutiful = true) :
    ∃ t, step s = .next t ∧ ∀ a ∈ t.host, a.dutiful = true := by
  obtain ⟨-, hwait⟩ | ⟨a, rest, hhost, hact⟩ := step_cases s
  · exact ⟨s, hwait, hduty⟩
  · rw [hhost] at hduty
    obtain ⟨t, hnext, hrest⟩ := act_of_dutiful (hduty a (List.mem_cons_self)) { s with host := rest }
    refine ⟨t, hact.trans hnext, ?_⟩
    rw [hrest]
    exact fun b hb => hduty b (List.mem_cons_of_mem a hb)

/-- Settles O47: by induction on the number of steps, the host's list staying dutiful. -/
theorem dutifulHostNeverStopsTheMachine : Obligations.DutifulHostNeverStopsTheMachine := by
  intro k
  induction k with
  | zero => exact fun s _ => ⟨s, rfl⟩
  | succ k ih =>
    intro s hduty
    obtain ⟨t, hstep, hduty'⟩ := step_of_dutiful hduty
    rw [core_run_succ k hstep]
    exact ih t hduty'

end Sys2Proof.Machine
end

section
/-! PROOF. The invariant of the result ports: it holds at reset, and every step keeps it. -/

namespace Sys2Proof.Machine

/-! The result words commands end with. -/

/-- A result word is legal when its STATUS and INFO are a pair of R79. -/
theorem resWordLegal_resultWord {status : BitVec 4} {info : BitVec 8}
    (hlisted : status.toNat = 0 ∧ info.toNat = 0 ∨ status.toNat = 1 ∧ 1 ≤ info.toNat ∧ info.toNat ≤ 14 ∨
      status.toNat = 2 ∧ info.toNat = 0 ∨ status.toNat = 3 ∧ info.toNat = 0 ∨
      status.toNat = 4 ∧ 1 ≤ info.toNat ∧ info.toNat ≤ 14 ∨ status.toNat = 5 ∧ 1 ≤ info.toNat ∧ info.toNat ≤ 3 ∨
      status.toNat = 6 ∧ 1 ≤ info.toNat ∧ info.toNat ≤ 2) : ResWordLegal (resultWord status info) := by
  have hstatus := status.isLt
  have hlow : (256 * info.toNat + status.toNat) % 16 = status.toNat := by omega
  have hmiddle : (256 * info.toNat + status.toNat) / 16 % 16 = 0 := by omega
  have hhigh : (256 * info.toNat + status.toNat) / 256 = info.toNat := by omega
  simp only [ResWordLegal, resultWord_toNat, hlow, hmiddle, hhigh, true_and]
  exact hlisted

theorem resWordLegal_resOk : ResWordLegal resOk := resWordLegal_resultWord (.inl ⟨rfl, rfl⟩)

/-- An error that names a header field names one of R73's fields, not code 0. -/
def NamesField : CmdError → Prop
  | .encodingError f => f ≠ .noField
  | .malformedFrame f => f ≠ .noField
  | _ => True

theorem fieldCode_bounds {f : FieldId} (hf : f ≠ .noField) : 1 ≤ (fieldCode f).toNat ∧ (fieldCode f).toNat ≤ 14 := by
  revert hf
  cases f <;> decide

theorem truncCode_bounds (r : TruncReason) : 1 ≤ (truncCode r).toNat ∧ (truncCode r).toNat ≤ 3 := by
  cases r <;> decide

theorem illegalCode_bounds (r : IllegalReason) : 1 ≤ (illegalCode r).toNat ∧ (illegalCode r).toNat ≤ 2 := by
  cases r <;> decide

/-- The result word of an error that names its field has the codes of R79. -/
theorem resWordLegal_resError {e : CmdError} (he : NamesField e) : ResWordLegal (resError e) := by
  apply resWordLegal_resultWord
  cases e with
  | encodingError f => exact .inr (.inl ⟨rfl, fieldCode_bounds he⟩)
  | payloadTooLarge => exact .inr (.inr (.inl ⟨rfl, rfl⟩))
  | frameTooLarge => exact .inr (.inr (.inr (.inl ⟨rfl, rfl⟩)))
  | malformedFrame f => exact .inr (.inr (.inr (.inr (.inl ⟨rfl, fieldCode_bounds he⟩))))
  | truncatedFrame r => exact .inr (.inr (.inr (.inr (.inr (.inl ⟨rfl, truncCode_bounds r⟩)))))
  | illegalCommand r => exact .inr (.inr (.inr (.inr (.inr (.inr ⟨rfl, illegalCode_bounds r⟩)))))

/-! Which errors a command raises. -/

/-- The field reported is one of the fields of the checks. -/
theorem firstFailure_mem {l : List (Bool × FieldId)} {f : FieldId} (hfirst : firstFailure l = some f) :
    f ∈ l.map Prod.snd := by
  obtain ⟨before, after, rfl, -⟩ := firstFailure_eq_some.1 hfirst
  simp

theorem encodeHeader_error_namesField {cfg : Cfg} {d : FrameDescriptor} {e : CmdError}
    (herror : encodeHeader cfg d = .error e) : NamesField e := by
  obtain ⟨f, hfirst, rfl⟩ := encodeHeader_error herror
  rintro rfl
  exact absurd (firstFailure_mem hfirst) (by simp [encodeChecks])

theorem decodeHeader_error_namesField {cfg : Cfg} {h : Header} {e : CmdError}
    (herror : decodeHeader cfg h = .error e) : NamesField e := by
  obtain ⟨f, hfirst, rfl⟩ := decodeHeader_error herror
  rintro rfl
  exact absurd (firstFailure_mem hfirst) (by simp [decodeChecks])

/-- ASSEMBLE's errors are those of its two limits (R150). -/
theorem assembleFrame_error_namesField {s : State} {e : CmdError}
    (herror : assembleFrame s.cfg s.ops.mh s.ops.pl s.ops.rid s.ops.tid s.ops.tag = .error e) : NamesField e := by
  rw [assembleFrame_ports_eq] at herror
  split at herror
  · cases herror; trivial
  · split at herror
    · cases herror; trivial
    · cases herror

/-- DISASSEMBLE's errors are truncations and those of the header's checks (R179). -/
theorem disassembleFrame_error_namesField {cfg : Cfg} {buf : Bytes} {hlen : Nat} {e : CmdError}
    (herror : disassembleFrame cfg buf hlen = .error e) : NamesField e := by
  rw [disassembleFrame_eq] at herror
  split at herror
  · cases herror; trivial
  split at herror
  next hdec =>
    cases herror
    exact decodeHeader_error_namesField hdec
  split at herror
  · cases herror; trivial
  split at herror
  · cases herror; trivial
  · cases herror

/-! Outcomes that have the invariant. -/

/-- The invariant speaks of RES and the result ports alone. -/
theorem resultsInv_congr {s t : State} (hres : t.res = s.res) (hresults : t.results = s.results) (hinv : ResultsInv s) :
    ResultsInv t where
  word_legal := hres ▸ hinv.word_legal
  none_unless_ok := hres ▸ hresults ▸ hinv.none_unless_ok
  hdr_legal := hresults ▸ hinv.hdr_legal
  desc_legal := hresults ▸ hinv.desc_legal
  pad_law := hresults ▸ hinv.pad_law
  frame_shape := hresults ▸ hinv.frame_shape
  span_law := hresults ▸ hinv.span_law

/-- With no result held the invariant asks for a listed result word alone. -/
theorem resultsInv_of_noResults {s : State} (hword : ∀ w, s.res = some w → ResWordLegal w)
    (hresults : s.results = noResults) : ResultsInv s where
  word_legal := hword
  none_unless_ok _ := hresults
  hdr_legal := by simp [hresults, noResults]
  desc_legal := by simp [hresults, noResults]
  pad_law := by simp [hresults, noResults]
  frame_shape := by simp [hresults, noResults]
  span_law := by simp [hresults, noResults]

/-- Settles O3: at reset there is no result word and no result. -/
theorem resultsInvHoldsAtReset : Obligations.ResultsInvHoldsAtReset :=
  resultsInv_of_noResults nofun rfl

theorem resultsInv_raise (s : State) {e : CmdError} (he : NamesField e) : ResultsInv (s.raise e) :=
  resultsInv_of_noResults (by simpa using resWordLegal_resError he) rfl

section
variable (s : State)

theorem ok_word_legal (r : ResultPorts) : ∀ w, (s.ok r).res = some w → ResWordLegal w := by
  rintro w ⟨⟩
  exact resWordLegal_resOk

theorem resultsInv_ok_writeHdr {cfg : Cfg} {h : Header} (hlegal : LegalHeader cfg h) :
    ResultsInv (s.ok (writeHdr h)) where
  word_legal := ok_word_legal s _
  none_unless_ok hnot := absurd rfl hnot
  hdr_legal := by
    rintro _ ⟨⟩
    exact ⟨cfg, hlegal⟩
  desc_legal := nofun
  pad_law := nofun
  frame_shape := nofun
  span_law := nofun

theorem resultsInv_ok_writeDesc {cfg : Cfg} {d : FrameDescriptor} (hlegal : LegalDescriptor cfg d) :
    ResultsInv (s.ok (writeDesc d)) where
  word_legal := ok_word_legal s _
  none_unless_ok hnot := absurd rfl hnot
  hdr_legal := nofun
  desc_legal := by
    rintro _ ⟨⟩
    exact ⟨cfg, hlegal⟩
  pad_law := nofun
  frame_shape := nofun
  span_law := nofun

theorem resultsInv_ok_writePadNdw (c : Nat) : ResultsInv (s.ok (writePadNdw (padOf c, dwordsOf c))) where
  word_legal := ok_word_legal s _
  none_unless_ok hnot := absurd rfl hnot
  hdr_legal := nofun
  desc_legal := nofun
  pad_law := by
    rintro _ _ ⟨⟩ ⟨⟩
    exact ⟨padOf_le c, (dwordsOf_eq c).ge.trans' (Nat.le_add_left _ _)⟩
  frame_shape := nofun
  span_law := nofun

theorem resultsInv_ok_writeFrame {f : Bytes} (hshape : FrameShape f) : ResultsInv (s.ok (writeFrame f)) where
  word_legal := ok_word_legal s _
  none_unless_ok hnot := absurd rfl hnot
  hdr_legal := nofun
  desc_legal := nofun
  pad_law := nofun
  frame_shape := by
    rintro _ ⟨⟩
    exact hshape
  span_law := nofun

theorem resultsInv_ok_writeSlices {cfg : Cfg} {mh pl : Bytes} {d : FrameDescriptor} (hlegal : LegalDescriptor cfg d)
    (hspan : mh.length + pl.length + d.padLen = 4 * d.lengthDwords) : ResultsInv (s.ok (writeSlices (mh, pl, d))) where
  word_legal := ok_word_legal s _
  none_unless_ok hnot := absurd rfl hnot
  hdr_legal := nofun
  desc_legal := by
    rintro _ ⟨⟩
    exact ⟨cfg, hlegal⟩
  pad_law := nofun
  frame_shape := nofun
  span_law := by
    rintro _ _ ⟨⟩ ⟨⟩
    exact ⟨d, rfl, hspan⟩

end

/-- A concluded command has the invariant when what it writes has, and its error names its field. -/
theorem resultsInv_conclude {α : Type} {s : State} {r : Except CmdError α} {write : α → ResultPorts}
    (hok : ∀ a, r = .ok a → ResultsInv (s.ok (write a))) (herror : ∀ e, r = .error e → NamesField e) :
    ResultsInv (s.conclude r write) := by
  cases r with
  | ok a => exact hok a rfl
  | error e => exact resultsInv_raise s (herror e rfl)

/-- What ASSEMBLE's function answers is a whole frame (R151). -/
theorem assembleFrame_ok_shape {s : State} {f : Bytes}
    (hasm : assembleFrame s.cfg s.ops.mh s.ops.pl s.ops.rid s.ops.tid s.ops.tag = .ok f) : FrameShape f := by
  rw [assembleFrame_ports_eq] at hasm
  split at hasm
  · cases hasm
  next hfits =>
    split at hasm
    · cases hasm
    · cases hasm
      exact assembledFrame_shape (Nat.le_of_not_lt hfits)

/-- The slices DISASSEMBLE's function answers, and the padding, fill the declared region (R174). -/
theorem disassembleFrame_ok_span {cfg : Cfg} {buf mh pl : Bytes} {hlen : Nat} {d : FrameDescriptor}
    (hdis : disassembleFrame cfg buf hlen = .ok (mh, pl, d)) :
    LegalDescriptor cfg d ∧ mh.length + pl.length + d.padLen = 4 * d.lengthDwords := by
  obtain ⟨d', -, hdec, hregion, hsplit, hslices⟩ := disassembleFrame_ok_iff.1 hdis
  cases hslices
  have hpad := (decodeHeader_span hdec).1
  rw [memRead_length (by omega), memRead_length (by omega)]
  exact ⟨decodeHeader_ok_legal hdec, by omega⟩

/-- Every operation leaves result ports that have the invariant, whatever they held before. -/
theorem exec_resultsInv {i : Instr} {s t : State} (hx : exec i s = .next t) : ResultsInv t := by
  cases i with
  | encodeHdr =>
    cases hx
    refine resultsInv_conclude (fun h henc => ?_) (fun _ => encodeHeader_error_namesField)
    obtain ⟨hlegal, rfl⟩ := encodeHeader_ok_iff.1 henc
    exact resultsInv_ok_writeHdr s (packHeader_legal hlegal)
  | decodeHdr =>
    cases hx
    exact resultsInv_conclude (fun _ hdec => resultsInv_ok_writeDesc s (decodeHeader_ok_legal hdec))
      (fun _ => decodeHeader_error_namesField)
  | padCalc =>
    cases hx
    exact resultsInv_ok_writePadNdw s s.ops.combined
  | assemble =>
    cases hx
    exact resultsInv_conclude (fun _ hasm => resultsInv_ok_writeFrame s (assembleFrame_ok_shape hasm))
      (fun _ => assembleFrame_error_namesField)
  | disassemble =>
    cases hx
    refine resultsInv_conclude (fun slices hdis => ?_) (fun _ => disassembleFrame_error_namesField)
    obtain ⟨hlegal, hspan⟩ := disassembleFrame_ok_span hdis
    exact resultsInv_ok_writeSlices s hlegal hspan

/-- Every command word leaves result ports that have the invariant. -/
theorem runCommand_resultsInv {w : CmdWord} {s t : State} (hrun : runCommand w s = .next t) : ResultsInv t := by
  obtain ⟨i, -, hexec⟩ | ⟨r, -, hraise⟩ := runCommand_cases w s
  · exact exec_resultsInv (hexec.symm.trans hrun)
  · cases hraise.symm.trans hrun
    exact resultsInv_raise s trivial

/-- Settles O4: of all a step can do, waiting, a read and a configuration write leave the result ports, a reset clears them, and
a command writes them anew. -/
theorem everyStepKeepsResultsInv : Obligations.EveryStepKeepsResultsInv := by
  intro s t hinv hstep
  obtain ⟨-, hwait⟩ | ⟨a, rest, -, hact⟩ := step_cases s
  · cases hwait.symm.trans hstep
    exact hinv
  obtain ⟨rfl, -⟩ | ⟨number, value, c, -, -, rfl⟩ | ⟨w, o, -, hrun⟩ | ⟨p, v, -, -, rfl⟩ := act_cases (hact.symm.trans hstep)
  · exact resultsInv_of_noResults nofun rfl
  · exact resultsInv_congr (s := s) rfl rfl hinv
  · exact runCommand_resultsInv hrun
  · exact resultsInv_congr (s := s) rfl rfl hinv

end Sys2Proof.Machine
end

section
/-! PROOF. The Binding Endpoint's sequences TRANSMIT and RECEIVE (30_encoding.md R92) over ASSEMBLE and DISASSEMBLE, and the
descriptor literal of R91. -/

namespace Sys2Proof.Machine

/-! Sequences over one command. -/

/-- A sequence over one operation's command leaves what the operation ends with on the presented operands, and hands on what it
finds there. -/
theorem hostSequence_of_endsWith {α : Type} {i : Instr} {o : OperandPorts} {s : State} {w : ResWord} {p : ResultPorts}
    (hends : EndsWith (s.present o) (exec i (s.present o)) w p) (take : State → Option α) :
    ∃ t, hostSequence (.command (encode i) o) take s = .next (t, take t) ∧
      t.res = some w ∧ t.results = p ∧ t.cfg = s.cfg ∧ t.host = s.host := by
  obtain ⟨t, hx, hres, hresults, hcfg, hhost⟩ := hends
  have hact : act (.command (encode i) o) s = .next t := (runCommand_of_decode_ok (decode_encode i) _).trans hx
  exact ⟨t, by rw [hostSequence, hact], hres, hresults, hcfg, hhost⟩

/-- The endpoint takes OK's result word for OK (R92). -/
theorem statusIsOk_of_res_ok {s : State} (hres : s.res = some (resOf 0 0)) : s.statusIsOk = true := by
  rw [State.statusIsOk, hres]
  decide

/-- The endpoint takes no error's result word for OK. -/
theorem statusIsOk_of_res_error {s : State} {e : CmdError} (hres : s.res = some (resError e)) : s.statusIsOk = false := by
  rw [State.statusIsOk, hres]
  exact beq_false_of_ne (by rw [resError, resStatus_resultWord]; exact errorStatus_ne_statusOk e)

/-! TRANSMIT. -/

theorem transportWrite_of_res_ok {s : State} (hres : s.res = some (resOf 0 0)) : transportWrite s = s.results.frame := by
  rw [transportWrite, if_pos (statusIsOk_of_res_ok hres)]

theorem transportWrite_of_res_error {s : State} {e : CmdError} (hres : s.res = some (resError e)) :
    transportWrite s = none := by
  rw [transportWrite, statusIsOk_of_res_error hres]
  rfl

/-- Settles O48: TRANSMIT presents ASSEMBLE with the endpoint's BDF, and each of ASSEMBLE's three outcomes decides what is
written. -/
theorem transmitWritesOnlyOnOk : Obligations.TransmitWritesOnlyOnOk := by
  intro ep mh pl tid tag s
  constructor
  case left =>
    intro hfits hframe
    obtain ⟨h, pad, hends, hpad, hcarries⟩ := assembleBuildsTheFrame
      (s.present { operandsAtRest with mh := mh, pl := pl, rid := ep.bdf, tid := tid, tag := tag }) hfits hframe
    obtain ⟨t, hseq, hres, hresults, hcfg, hhost⟩ := hostSequence_of_endsWith hends transportWrite
    rw [transportWrite_of_res_ok hres, hresults] at hseq
    exact ⟨t, h, pad, hseq, hres, hcfg, hhost, hpad, hcarries⟩
  case right =>
    intro hlimits
    split
    next hlong =>
      have hends := assemble_payloadTooLarge
        (s := s.present { operandsAtRest with mh := mh, pl := pl, rid := ep.bdf, tid := tid, tag := tag }) hlong
      obtain ⟨t, hseq, hres, -, hcfg, hhost⟩ := hostSequence_of_endsWith hends transportWrite
      rw [transportWrite_of_res_error (e := .payloadTooLarge) hres] at hseq
      exact ⟨t, hseq, hcfg, hhost, hres⟩
    next hfits =>
      have hends := assemble_frameTooLarge
        (s := s.present { operandsAtRest with mh := mh, pl := pl, rid := ep.bdf, tid := tid, tag := tag })
        (Nat.le_of_not_lt hfits) (hlimits.resolve_left hfits)
      obtain ⟨t, hseq, hres, -, hcfg, hhost⟩ := hostSequence_of_endsWith hends transportWrite
      rw [transportWrite_of_res_error (e := .frameTooLarge) hres] at hseq
      exact ⟨t, hseq, hcfg, hhost, hres⟩

/-! RECEIVE. -/

theorem coreStackInput_of_res_ok {s : State} {mh pl : Bytes} {d : FrameDescriptor} (hres : s.res = some (resOf 0 0))
    (hresults : s.results = writeSlices (mh, pl, d)) : coreStackInput s = some (mh, pl) := by
  rw [coreStackInput, if_pos (statusIsOk_of_res_ok hres), hresults]
  rfl

theorem coreStackInput_of_res_error {s : State} {e : CmdError} (hres : s.res = some (resError e)) :
    coreStackInput s = none := by
  rw [coreStackInput, statusIsOk_of_res_error hres]
  rfl

section
variable {buf : Bytes} {hlen : Nat} {s : State}

/-- RECEIVE hands on the slices DISASSEMBLE's function answers. -/
theorem receive_of_disassembleFrame_ok {mh pl : Bytes} {d : FrameDescriptor}
    (hdis : disassembleFrame s.cfg buf hlen = .ok (mh, pl, d)) :
    ∃ t, receive buf hlen s = .next (t, some (mh, pl)) ∧ t.cfg = s.cfg ∧ t.host = s.host := by
  obtain ⟨t, hseq, hres, hresults, hcfg, hhost⟩ := hostSequence_of_endsWith (i := .disassemble)
    (s := s) (o := { operandsAtRest with buf := buf, hlen := hlen })
    (conclude_ok_endsWith (write := writeSlices) hdis) coreStackInput
  rw [coreStackInput_of_res_ok hres hresults] at hseq
  exact ⟨t, hseq, hcfg, hhost⟩

/-- RECEIVE drops a buffer on which DISASSEMBLE's function raises an error (R221). -/
theorem receive_of_disassembleFrame_error {e : CmdError} (hdis : disassembleFrame s.cfg buf hlen = .error e) :
    ∃ t, receive buf hlen s = .next (t, none) ∧ t.cfg = s.cfg ∧ t.host = s.host ∧ t.results = noResults := by
  obtain ⟨t, hseq, hres, hresults, hcfg, hhost⟩ := hostSequence_of_endsWith (i := .disassemble)
    (s := s) (o := { operandsAtRest with buf := buf, hlen := hlen })
    (conclude_error_endsWith (write := writeSlices) hdis) coreStackInput
  rw [coreStackInput_of_res_error hres] at hseq
  exact ⟨t, hseq, hcfg, hhost, hresults⟩

end

/-- DISASSEMBLE's function answers only on a legal header, a whole region and a long enough span (R179). -/
theorem disassembleFrame_ok_only_if {cfg : Cfg} {buf : Bytes} {hlen : Nat} {r : Bytes × Bytes × FrameDescriptor}
    (hdis : disassembleFrame cfg buf hlen = .ok r) :
    12 ≤ buf.length ∧ LegalHeader cfg (headerOf buf) ∧ 12 + 4 * declaredLength (headerOf buf) ≤ buf.length ∧
      hlen ≤ spanLength buf := by
  obtain ⟨d, hpresent, hdec, hregion, hsplit, -⟩ := disassembleFrame_ok_iff.1 hdis
  rw [(decodeHeader_span hdec).2] at hsplit
  obtain ⟨hlegal, rfl⟩ := decodeHeader_ok_iff.1 hdec
  rw [unpackHeader_of_legal hlegal] at hregion
  exact ⟨hpresent, hlegal, hregion, hsplit⟩

/-- Settles O49: RECEIVE hands on exactly what DISASSEMBLE's function answers, on legal buffers and on assembled frames. -/
theorem receiveHandsOnGoodFramesAndDropsMalformed : Obligations.ReceiveHandsOnGoodFramesAndDropsMalformed := by
  refine ⟨?good, ?dropped, ?assembled⟩
  case good =>
    intro buf hlen s hlegal hregion hspan
    exact receive_of_disassembleFrame_ok (disassembleFrame_ok_of_legal hlegal hregion hspan)
  case dropped =>
    intro buf hlen s hbad
    cases hdis : disassembleFrame s.cfg buf hlen with
    | error e => exact receive_of_disassembleFrame_error hdis
    | ok r =>
      obtain ⟨hpresent, hlegal, hregion, hspan⟩ := disassembleFrame_ok_only_if hdis
      obtain hshort | hillegal | hmissing | hsplit := hbad
      · omega
      · exact absurd hlegal hillegal
      · omega
      · omega
  case assembled =>
    intro s t u f after hx hf hcfg
    obtain ⟨hfits, -, rfl⟩ := assemble_frame_eq_assembledFrame hx hf
    exact receive_of_disassembleFrame_ok (hcfg ▸ disassembleFrame_assembledFrame_mh after hfits)

/-! The descriptor literal. -/

/-- A well-formed literal is ENCODE_HDR's operand (R90, R91). -/
theorem lineCommand_encodeHdr {d : DescExpr} (cfg : Cfg) (hwf : d.wf = true) :
    lineCommand cfg { op := .encodeHdr, operands := [.desc d] } =
      some (.command (encode .encodeHdr) { operandsAtRest with desc := descExprValue cfg d }) := by
  have hline : Line.wf { op := .encodeHdr, operands := [.desc d] } = true := hwf
  rw [lineCommand, if_pos hline]
  rfl

/-- The literal that writes the four required fields alone (R91). -/
def requiredFields (len pad rid tid : Nat) : DescExpr :=
  { lengthDwords := some len, padLen := some pad, requesterId := some rid, targetId := some tid }

theorem requiredFields_wf {rid tid : Nat} (len pad : Nat) (hrid : rid < 2 ^ 16) (htid : tid < 2 ^ 16) :
    (requiredFields len pad rid tid).wf = true := by
  simp only [requiredFields, DescExpr.wf, fieldFits, hrid, htid, Option.isSome_some, decide_true, Bool.and_self]

/-- Settles O50: the literal is well formed, and the fields it leaves out have the values a legal descriptor has. -/
theorem descriptorLiteralDefaultsAreEncodable : Obligations.DescriptorLiteralDefaultsAreEncodable := by
  intro cfg len pad rid tid hlen hpad hfits hrid htid
  refine ⟨{ operandsAtRest with desc := descExprValue cfg (requiredFields len pad rid tid) },
    lineCommand_encodeHdr cfg (requiredFields_wf len pad hrid htid), ?legal, rfl, rfl, Nat.mod_eq_of_lt hrid, Nat.mod_eq_of_lt htid⟩
  case legal => exact ⟨⟨rfl, rfl, rfl, rfl, rfl, rfl, rfl, rfl, rfl⟩, hlen, hpad, hfits⟩

end Sys2Proof.Machine
end
